-- ==== Sys2Proof/Word.lean ====
section
/-! DEFINITION. The word types of the core: bytes, 16-bit words, 12-bit addresses, and the indexes that name a register,
a key or a number of sprite rows (R7, R21, R24, R25, R91). Every value is unsigned (R7). -/

namespace Sys2Proof

/-- An 8-bit register, memory byte or timer (R21, R28, R60). -/
abbrev Byte := BitVec 8

/-- A 16-bit value: an instruction word, `I`, `pc` or a return address (R24, R25, R26, R90). -/
abbrev Word := BitVec 16

/-- The 12-bit address operand `nnn` (R91). -/
abbrev Addr := BitVec 12

/-- The index of a general register, 0x0 to 0xF (R21); also what `ktarget` holds (R32). -/
abbrev Reg := Fin 16

/-- The index of a key, 0x0 to 0xF (R31, R42). -/
abbrev KeyIndex := Fin 16

/-- The number of sprite rows of Dxyn, 0 to 15 (R92, R131). -/
abbrev Rows := Fin 16

/-- VF, the register that serves as the flag (R22). -/
abbrev VF : Reg := 15

end Sys2Proof
end

