-- ==== Sys2Proof/Config.lean ====
section
/-! DEFINITION. The implementation parameters of R6 and the free value of the model. The font, the other parameter of R6,
stands in Machine/Font.lean. -/

namespace Sys2Proof

/-- `MEM_SIZE`: 4096 bytes (R6, R60). -/
abbrev Config.memSize : Nat := 4096

/-- `ROM_BASE`, the entry point: 0x200 (R6, R47). -/
abbrev Config.romBase : Nat := 0x200

/-- `ROM_MAX`: 3584 bytes (R6, R332). -/
abbrev Config.romMax : Nat := 3584

/-- `DISPLAY_W`: 64 pixels (R6, R29). -/
abbrev Config.displayW : Nat := 64

/-- `DISPLAY_H`: 32 pixels (R6, R29). -/
abbrev Config.displayH : Nat := 32

/-- The free random draws of Cxnn: `randomByte k` is the byte of the `k`-th draw that the environment does not name.
It has no body, so nothing can be proved of its value: R42 and R192 allow every byte. DESIGN CHOICE, safe (log 2). -/
opaque Config.randomByte : Nat → Byte

end Sys2Proof
end

