-- ==== Sys2Proof/Syntax.lean ====
section
/-! DEFINITION. The instructions: one constructor for each of the 34 rows of spec/opcode_table.json, in the table's order
(R94; 90_conflicts.md C1). The operands are the fields the row's format names (R91, R93). The bits that a row does not
look at (R96) are kept as an operand too, so that a constructor stands for one word: they have no effect (log 10). -/

namespace Sys2Proof

/-- An instruction of the core (R94). -/
inductive Instr where
  /-- `00E0` CLS (R130). -/
  | cls
  /-- `00EE` RET (R150). -/
  | ret
  /-- `1nnn` JP nnn (R151). -/
  | jp (nnn : Addr)
  /-- `2nnn` CALL nnn (R152). -/
  | call (nnn : Addr)
  /-- `3xnn` SE Vx, nn (R153). -/
  | seByte (x : Reg) (nn : Byte)
  /-- `4xnn` SNE Vx, nn (R154). -/
  | sneByte (x : Reg) (nn : Byte)
  /-- `5xyd` SE Vx, Vy (R155). The low nibble `d` is ignored (R96). -/
  | seReg (x y : Reg) (d : BitVec 4)
  /-- `6xnn` LD Vx, nn (R181). -/
  | ldByte (x : Reg) (nn : Byte)
  /-- `7xnn` ADD Vx, nn (R182). -/
  | addByte (x : Reg) (nn : Byte)
  /-- `8xy0` LD Vx, Vy (R183). -/
  | ldReg (x y : Reg)
  /-- `8xy1` OR Vx, Vy (R184). -/
  | orReg (x y : Reg)
  /-- `8xy2` AND Vx, Vy (R185). -/
  | andReg (x y : Reg)
  /-- `8xy3` XOR Vx, Vy (R186). -/
  | xorReg (x y : Reg)
  /-- `8xy4` ADD Vx, Vy (R187). -/
  | addReg (x y : Reg)
  /-- `8xy5` SUB Vx, Vy (R188). -/
  | subReg (x y : Reg)
  /-- `8xy6` SHR Vx (R189). `y` is ignored (R96). -/
  | shr (x y : Reg)
  /-- `8xy7` SUBN Vx, Vy (R190). -/
  | subnReg (x y : Reg)
  /-- `8xyE` SHL Vx (R191). `y` is ignored (R96). -/
  | shl (x y : Reg)
  /-- `9xyd` SNE Vx, Vy (R156). The low nibble `d` is ignored (R96). -/
  | sneReg (x y : Reg) (d : BitVec 4)
  /-- `Annn` LD I, nnn (R220). -/
  | ldI (nnn : Addr)
  /-- `Bnnn` JP V0, nnn (R157). -/
  | jpV0 (nnn : Addr)
  /-- `Cxnn` RND Vx, nn (R192). -/
  | rnd (x : Reg) (nn : Byte)
  /-- `Dxyn` DRW Vx, Vy, n (R131). -/
  | drw (x y : Reg) (n : Rows)
  /-- `Ex9E` SKP Vx (R250). -/
  | skp (x : Reg)
  /-- `ExA1` SKNP Vx (R251). -/
  | sknp (x : Reg)
  /-- `Fx07` LD Vx, DT (R253). -/
  | ldVxDT (x : Reg)
  /-- `Fx0A` LD Vx, K (R254). -/
  | ldVxK (x : Reg)
  /-- `Fx15` LD DT, Vx (R255). -/
  | ldDTVx (x : Reg)
  /-- `Fx18` LD ST, Vx (R256). -/
  | ldSTVx (x : Reg)
  /-- `Fx1E` ADD I, Vx (R221). -/
  | addIVx (x : Reg)
  /-- `Fx29` LD F, Vx (R222). -/
  | ldFVx (x : Reg)
  /-- `Fx33` LD B, Vx (R223). -/
  | ldBVx (x : Reg)
  /-- `Fx55` LD [I], Vx (R224). -/
  | storeRegs (x : Reg)
  /-- `Fx65` LD Vx, [I] (R225). -/
  | loadRegs (x : Reg)
  deriving DecidableEq, Repr

end Sys2Proof
end

