-- ==== Sys2Proof/WellFormed.lean ====
section
/-! DEFINITION. Well-formed instructions: the form the assembler of R101 emits. The types of the operands already hold
every bound of a field (R91), so the one thing left to check is that the bits the core ignores are zero. The core itself
runs an instruction whose ignored bits are not zero exactly like the well-formed one (R96). -/

namespace Sys2Proof

/-- The bits of the word that the core does not look at (R96) are zero, as the assembler writes them (R101). -/
def Instr.wellFormed : Instr → Bool
  | .seReg _ _ d => d == 0
  | .sneReg _ _ d => d == 0
  | .shr _ y => y == 0
  | .shl _ y => y == 0
  | .cls | .ret | .jp _ | .call _ | .seByte _ _ | .sneByte _ _ | .ldByte _ _ | .addByte _ _ | .ldReg _ _ | .orReg _ _
  | .andReg _ _ | .xorReg _ _ | .addReg _ _ | .subReg _ _ | .subnReg _ _ | .ldI _ | .jpV0 _ | .rnd _ _ | .drw _ _ _
  | .skp _ | .sknp _ | .ldVxDT _ | .ldVxK _ | .ldDTVx _ | .ldSTVx _ | .addIVx _ | .ldFVx _ | .ldBVx _ | .storeRegs _
  | .loadRegs _ => true

/-- The assembler's spelling of an instruction: the ignored bits cleared (R96, R101). -/
def Instr.canonical : Instr → Instr
  | .seReg x y _ => .seReg x y 0
  | .sneReg x y _ => .sneReg x y 0
  | .shr x _ => .shr x 0
  | .shl x _ => .shl x 0
  | .cls => .cls
  | .ret => .ret
  | .jp nnn => .jp nnn
  | .call nnn => .call nnn
  | .seByte x nn => .seByte x nn
  | .sneByte x nn => .sneByte x nn
  | .ldByte x nn => .ldByte x nn
  | .addByte x nn => .addByte x nn
  | .ldReg x y => .ldReg x y
  | .orReg x y => .orReg x y
  | .andReg x y => .andReg x y
  | .xorReg x y => .xorReg x y
  | .addReg x y => .addReg x y
  | .subReg x y => .subReg x y
  | .subnReg x y => .subnReg x y
  | .ldI nnn => .ldI nnn
  | .jpV0 nnn => .jpV0 nnn
  | .rnd x nn => .rnd x nn
  | .drw x y n => .drw x y n
  | .skp x => .skp x
  | .sknp x => .sknp x
  | .ldVxDT x => .ldVxDT x
  | .ldVxK x => .ldVxK x
  | .ldDTVx x => .ldDTVx x
  | .ldSTVx x => .ldSTVx x
  | .addIVx x => .addIVx x
  | .ldFVx x => .ldFVx x
  | .ldBVx x => .ldBVx x
  | .storeRegs x => .storeRegs x
  | .loadRegs x => .loadRegs x

end Sys2Proof
end

