-- ==== Sys2Proof/Decode.lean ====
section
/-! DEFINITION. The decoder (R90 to R99, R107), total on every word and every list of bytes, and the encoder, written from
the bit layouts of R93 and R94. `patternTable`, `rowMask` and `rowMatch` copy the masks and matches of R94's table; the
decoder does not use them, so that a statement can hold the two against each other. -/

namespace Sys2Proof

/-! ### Fields (R91) -/

/-- `op = w[15:12]`. -/
def fieldOp (w : Word) : BitVec 4 := w.extractLsb' 12 4

/-- `x = w[11:8]`, a register. -/
def fieldX (w : Word) : Reg := (w.extractLsb' 8 4).toFin

/-- `y = w[7:4]`, a register. -/
def fieldY (w : Word) : Reg := (w.extractLsb' 4 4).toFin

/-- `n = w[3:0]`. -/
def fieldN (w : Word) : BitVec 4 := w.extractLsb' 0 4

/-- `nn = w[7:0]`. -/
def fieldNN (w : Word) : Byte := w.extractLsb' 0 8

/-- `nnn = w[11:0]`. -/
def fieldNNN (w : Word) : Addr := w.extractLsb' 0 12

/-! ### Bytes and words (R68) -/

/-- A word from its two bytes, the high byte first (R7, R68). -/
def wordOfBytes (hi lo : Byte) : Word := hi ++ lo

/-- The high byte of a word, the one at the lower address (R68). -/
def highByte (w : Word) : Byte := w.extractLsb' 8 8

/-- The low byte of a word (R68). -/
def lowByte (w : Word) : Byte := w.extractLsb' 0 8

/-! ### The decoder -/

/-- Why bytes are no instruction. -/
inductive DecodeError where
  /-- Fewer than two bytes: no word. A fetch always reads two (R106), so the core never meets this. -/
  | truncated
  /-- The word matches no row of R94 (R97). -/
  | unknownOpcode (w : Word)
  deriving DecidableEq, Repr

/-- Group 0x0: the sub-selector is the whole word (R95; the spec's decision D5). -/
def decodeGroup0 (w : Word) : Except DecodeError Instr :=
  if w = 0x00E0 then .ok .cls
  else if w = 0x00EE then .ok .ret
  else .error (.unknownOpcode w)

/-- Group 0x8: the sub-selector is `n` (R95). -/
def decodeGroup8 (w : Word) : Except DecodeError Instr :=
  match (fieldN w).toNat with
  | 0x0 => .ok (.ldReg (fieldX w) (fieldY w))
  | 0x1 => .ok (.orReg (fieldX w) (fieldY w))
  | 0x2 => .ok (.andReg (fieldX w) (fieldY w))
  | 0x3 => .ok (.xorReg (fieldX w) (fieldY w))
  | 0x4 => .ok (.addReg (fieldX w) (fieldY w))
  | 0x5 => .ok (.subReg (fieldX w) (fieldY w))
  | 0x6 => .ok (.shr (fieldX w) (fieldY w))
  | 0x7 => .ok (.subnReg (fieldX w) (fieldY w))
  | 0xE => .ok (.shl (fieldX w) (fieldY w))
  | _ => .error (.unknownOpcode w)

/-- Group 0xE: the sub-selector is `nn` (R95). -/
def decodeGroupE (w : Word) : Except DecodeError Instr :=
  if fieldNN w = 0x9E then .ok (.skp (fieldX w))
  else if fieldNN w = 0xA1 then .ok (.sknp (fieldX w))
  else .error (.unknownOpcode w)

/-- Group 0xF: the sub-selector is `nn` (R95). -/
def decodeGroupF (w : Word) : Except DecodeError Instr :=
  if fieldNN w = 0x07 then .ok (.ldVxDT (fieldX w))
  else if fieldNN w = 0x0A then .ok (.ldVxK (fieldX w))
  else if fieldNN w = 0x15 then .ok (.ldDTVx (fieldX w))
  else if fieldNN w = 0x18 then .ok (.ldSTVx (fieldX w))
  else if fieldNN w = 0x1E then .ok (.addIVx (fieldX w))
  else if fieldNN w = 0x29 then .ok (.ldFVx (fieldX w))
  else if fieldNN w = 0x33 then .ok (.ldBVx (fieldX w))
  else if fieldNN w = 0x55 then .ok (.storeRegs (fieldX w))
  else if fieldNN w = 0x65 then .ok (.loadRegs (fieldX w))
  else .error (.unknownOpcode w)

/-- The decoder of R95: it selects the group by `op`, then checks the group's sub-selector if it has one. -/
def decode (w : Word) : Except DecodeError Instr :=
  match (fieldOp w).toNat with
  | 0x0 => decodeGroup0 w
  | 0x1 => .ok (.jp (fieldNNN w))
  | 0x2 => .ok (.call (fieldNNN w))
  | 0x3 => .ok (.seByte (fieldX w) (fieldNN w))
  | 0x4 => .ok (.sneByte (fieldX w) (fieldNN w))
  | 0x5 => .ok (.seReg (fieldX w) (fieldY w) (fieldN w))
  | 0x6 => .ok (.ldByte (fieldX w) (fieldNN w))
  | 0x7 => .ok (.addByte (fieldX w) (fieldNN w))
  | 0x8 => decodeGroup8 w
  | 0x9 => .ok (.sneReg (fieldX w) (fieldY w) (fieldN w))
  | 0xA => .ok (.ldI (fieldNNN w))
  | 0xB => .ok (.jpV0 (fieldNNN w))
  | 0xC => .ok (.rnd (fieldX w) (fieldNN w))
  | 0xD => .ok (.drw (fieldX w) (fieldY w) (fieldN w).toFin)
  | 0xE => decodeGroupE w
  | 0xF => decodeGroupF w
  | _ => .error (.unknownOpcode w)

/-- The decoder on bytes: the instruction at the front and the bytes after it (R68, R90). -/
def decodeBytes : List Byte → Except DecodeError (Instr × List Byte)
  | hi :: lo :: rest => (decode (wordOfBytes hi lo)).map (fun i => (i, rest))
  | _ => .error .truncated

/-! ### The encoder -/

/-- A register's 4-bit field (R92). -/
def regBits (r : Reg) : BitVec 4 := BitVec.ofFin r

/-- Format A: `oooo aaaa aaaa aaaa` (R93). -/
def formatA (o : BitVec 4) (nnn : Addr) : Word := o ++ nnn

/-- Format XK: `oooo xxxx kkkk kkkk` (R93); format XS is the same with a fixed byte. -/
def formatXK (o : BitVec 4) (x : Reg) (nn : Byte) : Word := o ++ regBits x ++ nn

/-- Formats XY and XYN: `oooo xxxx yyyy ssss` (R93). -/
def formatXY (o : BitVec 4) (x y : Reg) (s : BitVec 4) : Word := o ++ regBits x ++ regBits y ++ s

/-- The word of an instruction (R93, R94). -/
def encode : Instr → Word
  | .cls => 0x00E0
  | .ret => 0x00EE
  | .jp nnn => formatA 0x1 nnn
  | .call nnn => formatA 0x2 nnn
  | .seByte x nn => formatXK 0x3 x nn
  | .sneByte x nn => formatXK 0x4 x nn
  | .seReg x y d => formatXY 0x5 x y d
  | .ldByte x nn => formatXK 0x6 x nn
  | .addByte x nn => formatXK 0x7 x nn
  | .ldReg x y => formatXY 0x8 x y 0x0
  | .orReg x y => formatXY 0x8 x y 0x1
  | .andReg x y => formatXY 0x8 x y 0x2
  | .xorReg x y => formatXY 0x8 x y 0x3
  | .addReg x y => formatXY 0x8 x y 0x4
  | .subReg x y => formatXY 0x8 x y 0x5
  | .shr x y => formatXY 0x8 x y 0x6
  | .subnReg x y => formatXY 0x8 x y 0x7
  | .shl x y => formatXY 0x8 x y 0xE
  | .sneReg x y d => formatXY 0x9 x y d
  | .ldI nnn => formatA 0xA nnn
  | .jpV0 nnn => formatA 0xB nnn
  | .rnd x nn => formatXK 0xC x nn
  | .drw x y n => formatXY 0xD x y (BitVec.ofFin n)
  | .skp x => formatXK 0xE x 0x9E
  | .sknp x => formatXK 0xE x 0xA1
  | .ldVxDT x => formatXK 0xF x 0x07
  | .ldVxK x => formatXK 0xF x 0x0A
  | .ldDTVx x => formatXK 0xF x 0x15
  | .ldSTVx x => formatXK 0xF x 0x18
  | .addIVx x => formatXK 0xF x 0x1E
  | .ldFVx x => formatXK 0xF x 0x29
  | .ldBVx x => formatXK 0xF x 0x33
  | .storeRegs x => formatXK 0xF x 0x55
  | .loadRegs x => formatXK 0xF x 0x65

/-- The bytes of an instruction as memory holds them (R68). -/
def encodeBytes (i : Instr) : List Byte := [highByte (encode i), lowByte (encode i)]

/-! ### The opcode table of R94 -/

/-- The masks and matches of R94, in the table's order. -/
def patternTable : List (Word × Word) :=
  [(0xFFFF, 0x00E0), (0xFFFF, 0x00EE), (0xF000, 0x1000), (0xF000, 0x2000), (0xF000, 0x3000), (0xF000, 0x4000),
   (0xF000, 0x5000), (0xF000, 0x6000), (0xF000, 0x7000)] ++
  [(0xF00F, 0x8000), (0xF00F, 0x8001), (0xF00F, 0x8002), (0xF00F, 0x8003), (0xF00F, 0x8004), (0xF00F, 0x8005),
   (0xF00F, 0x8006), (0xF00F, 0x8007), (0xF00F, 0x800E)] ++
  [(0xF000, 0x9000), (0xF000, 0xA000), (0xF000, 0xB000), (0xF000, 0xC000), (0xF000, 0xD000), (0xF0FF, 0xE09E),
   (0xF0FF, 0xE0A1)] ++
  [(0xF0FF, 0xF007), (0xF0FF, 0xF00A), (0xF0FF, 0xF015), (0xF0FF, 0xF018), (0xF0FF, 0xF01E), (0xF0FF, 0xF029),
   (0xF0FF, 0xF033), (0xF0FF, 0xF055), (0xF0FF, 0xF065)]

/-- The place of an instruction's row in `patternTable` (R94). -/
def Instr.row : Instr → Nat
  | .cls => 0
  | .ret => 1
  | .jp _ => 2
  | .call _ => 3
  | .seByte _ _ => 4
  | .sneByte _ _ => 5
  | .seReg _ _ _ => 6
  | .ldByte _ _ => 7
  | .addByte _ _ => 8
  | .ldReg _ _ => 9
  | .orReg _ _ => 10
  | .andReg _ _ => 11
  | .xorReg _ _ => 12
  | .addReg _ _ => 13
  | .subReg _ _ => 14
  | .shr _ _ => 15
  | .subnReg _ _ => 16
  | .shl _ _ => 17
  | .sneReg _ _ _ => 18
  | .ldI _ => 19
  | .jpV0 _ => 20
  | .rnd _ _ => 21
  | .drw _ _ _ => 22
  | .skp _ => 23
  | .sknp _ => 24
  | .ldVxDT _ => 25
  | .ldVxK _ => 26
  | .ldDTVx _ => 27
  | .ldSTVx _ => 28
  | .addIVx _ => 29
  | .ldFVx _ => 30
  | .ldBVx _ => 31
  | .storeRegs _ => 32
  | .loadRegs _ => 33

/-- A word is an instance of a pattern when `(w AND mask) = match` (R94). -/
def matchesPattern (w : Word) (p : Word × Word) : Bool := w &&& p.1 == p.2

/-! ### The host's reading of a table word -/

/-- The instruction word that a table word of `nbits` bits stands for: bit 0 is the least significant bit of the word, and
bits above `nbits` are zero. -/
def tableWord (nbits w : Nat) : Word := BitVec.ofNat 16 (w % 2 ^ nbits)

/-- The instruction the decoder reads from the bytes of a table word, laid out as memory holds them (R68). -/
def decodeTableWord (nbits w : Nat) : Option Instr :=
  match decodeBytes [highByte (tableWord nbits w), lowByte (tableWord nbits w)] with
  | .ok (i, _) => some i
  | .error _ => none

end Sys2Proof
end

