-- ==== Sys2Proof/Machine/Font.lean ====
section
/-! DEFINITION. The parameter `FONT` (R6, R65), its default, and the contents of memory at reset. -/

namespace Sys2Proof.Machine

/-- The parameter `FONT`: 80 bytes, glyph d is bytes 5d to 5d + 4, the top row first (R6, R65). -/
abbrev Font := Vector Byte 80

/-- The bytes of the default of `FONT`, in order (R65).
PRESUMED, unsafe: the source does not give the bytes; the spec supplies them from general knowledge (log 1). -/
def defaultFontBytes : List Byte :=
  [0xF0, 0x90, 0x90, 0x90, 0xF0] ++ [0x20, 0x60, 0x20, 0x20, 0x70] ++
  [0xF0, 0x10, 0xF0, 0x80, 0xF0] ++ [0xF0, 0x10, 0xF0, 0x10, 0xF0] ++
  [0x90, 0x90, 0xF0, 0x10, 0x10] ++ [0xF0, 0x80, 0xF0, 0x10, 0xF0] ++
  [0xF0, 0x80, 0xF0, 0x90, 0xF0] ++ [0xF0, 0x10, 0x20, 0x40, 0x40] ++
  [0xF0, 0x90, 0xF0, 0x90, 0xF0] ++ [0xF0, 0x90, 0xF0, 0x10, 0xF0] ++
  [0xF0, 0x90, 0xF0, 0x90, 0x90] ++ [0xE0, 0x90, 0xE0, 0x90, 0xE0] ++
  [0xF0, 0x80, 0x80, 0x80, 0xF0] ++ [0xE0, 0x90, 0x90, 0x90, 0xE0] ++
  [0xF0, 0x80, 0xF0, 0x80, 0xF0] ++ [0xF0, 0x80, 0xF0, 0x80, 0x80]

/-- The default of `FONT` (R6, R65; log 1). -/
def defaultFont : Font := Vector.ofFn fun j => defaultFontBytes.getD j.val 0x00

/-- What an address that memory does not list reads as: its contents at reset, `FONT` at 0x000..0x04F and 0x00 from there
on (R46, R64, R65; log 12). -/
def unlisted (font : Font) (a : Nat) : Byte := if h : a < 80 then font[a] else 0x00

end Sys2Proof.Machine
end

