-- ==== Sys2Proof/Machine/State.lean ====
section
/-! DEFINITION. The state of the core as plain data (R20), the host commands (R40), the reasons a step can stop, and the
state after reset (R46). -/

namespace Sys2Proof.Machine

/-- Memory (R60): the bytes that differ from the reset contents, by rising address. -/
abbrev Memory := List Host.Cell

/-- The canonical form of a memory, given `FONT`: addresses strictly rising and inside the 4096 bytes of R60, and no entry
equal to what an unlisted address reads as. -/
abbrev Memory.wf (font : Font) (m : Memory) : Prop :=
  m.Pairwise (fun c d => c.1 < d.1) ∧ ∀ c ∈ m, c.1 < Config.memSize ∧ c.2 ≠ unlisted font c.1

/-- The state of the key-input machine (R32, R257). -/
inductive KState where
  /-- Instructions execute. -/
  | running
  /-- An Fx0A waits for a key press. -/
  | awaitingKey
  deriving DecidableEq, Repr

/-- The fault record (R33, R290). -/
inductive FaultKind where
  /-- No fault: the core may step. -/
  | none
  /-- `LOAD` of more than 3584 bytes (R294). -/
  | romTooLarge
  /-- `STEP` fetched a word that matches no pattern (R291). -/
  | unknownOpcode
  /-- 2nnn with sp = 16 (R292). -/
  | stackOverflow
  /-- 00EE with sp = 0 (R293). -/
  | stackUnderflow
  deriving DecidableEq, Repr

/-- A host command (R40). -/
inductive Command where
  /-- `RESET`, the source's `new()` (R330). -/
  | reset
  /-- `LOAD(bytes)` (R332). -/
  | load (bytes : List Byte)
  /-- `STEP(rnd)` (R105): `some b` presents the random byte `b`; `none` leaves the draw free (R42). -/
  | step (rnd : Option Byte)
  /-- `TICK`, the source's `tick60Hz()` (R263, R264). -/
  | tick
  /-- `KEY(k, pressed)` (R259, R260). -/
  | key (k : KeyIndex) (pressed : Bool)
  /-- `CLEAR_REDRAW` (R144). -/
  | clearRedraw
  deriving DecidableEq, Repr

/-- The framebuffer (R29): `fb[py*64 + px]` of the spec is bit `px` of row `py` (log 7). -/
abbrev Framebuffer := Vector (BitVec 64) 32

/-- The state: the elements of R20 under the spec's names, then the fields of the model's own, which are no state of the
core: its inputs (log 2, log 3) and the parameter `FONT` of R6, which no command changes (log 1). -/
structure State where
  /-- `mem[0..4095]` (R60). -/
  mem : Memory
  /-- `V[0..15]` (R21). -/
  v : Vector Byte 16
  /-- `I` (R24). -/
  i : Word
  /-- `pc` (R25). -/
  pc : Word
  /-- `stack[0..15]` (R26). -/
  stack : Vector Word 16
  /-- `sp`, the number of valid entries, 0 to 16 (R27). -/
  sp : Fin 17
  /-- `dt`, the delay timer (R28). -/
  dt : Byte
  /-- `st`, the sound timer (R28). -/
  st : Byte
  /-- `fb[0..2047]` (R29; log 7). -/
  fb : Framebuffer
  /-- `redraw` (R30). -/
  redraw : Bool
  /-- `key[0..15]` (R31). -/
  key : Vector Bool 16
  /-- `kstate` (R32). -/
  kstate : KState
  /-- `ktarget` (R32). -/
  ktarget : Reg
  /-- `fault` (R33). -/
  fault : FaultKind
  /-- `fault_word` (R33). -/
  faultWord : Word
  /-- The model's own: the byte sampled by the STEP under way, `none` where nothing names it. It is set when a STEP begins and
  gone when it ends, so that none is left between commands (R20, R42, R109; log 2). -/
  rnd : Option Byte
  /-- The model's own: how many free draws Cxnn has taken (log 2). -/
  draws : Nat
  /-- The model's own: the host commands not yet issued, oldest first; when there is none the host issues STEP (log 3). -/
  pending : List Command
  /-- The model's own: the parameter `FONT` that the model takes as an argument (R6, R65; log 1). -/
  font : Font
  deriving DecidableEq, Repr

/-- The reasons the machine could stop with no next state: none. The core's four faults are records in its state, which it
enters and keeps as R295 and R296 say, and every command is defined in every state (R345); so no instruction and no command
raises a fault of this type. Safe (log 5). -/
inductive Fault where
  deriving DecidableEq, Repr

/-- The reasons an instruction can be refused. -/
inductive Refusal where
  /-- Raised by an arm of `exec` that has no meaning yet. Safe: nothing can be proved of the step. No arm raises it now. -/
  | notModelled (mnemonic : String)
  deriving DecidableEq, Repr

/-- The state after RESET (R46, R47, R330), with `FONT` at its default (PRESUMED, log 1). The inputs, the model's own fields,
are at values no statement rests on (DESIGN CHOICE, log 2 and log 3). -/
def State.reset : State where
  mem := []
  v := Vector.replicate 16 0x00
  i := 0x0000
  pc := 0x0200
  stack := Vector.replicate 16 0x0000
  sp := 0
  dt := 0x00
  st := 0x00
  fb := Vector.replicate 32 0
  redraw := false
  key := Vector.replicate 16 false
  kstate := .running
  ktarget := 0
  fault := .none
  faultWord := 0x0000
  rnd := none
  draws := 0
  pending := []
  font := defaultFont

end Sys2Proof.Machine
end

