-- ==== Sys2Proof/Machine/Ops.lean ====
section
/-! DEFINITION. The named operations over memory, registers, the stack, the display, the random input and the program
counter, and the one operation that raises a fault (R295). The core has no return from a fault: only RESET clears the
record (R298, R301), so there is none beside it. -/

namespace Sys2Proof.Machine

/-! ### Memory (R60 to R63) -/

/-- The byte at an address of memory, whose unlisted addresses read as `FONT` and zeros (R64, R65). -/
def Memory.read (font : Font) : Memory → Nat → Byte
  | [], a => unlisted font a
  | c :: m, a => if c.1 = a then c.2 else Memory.read font m a

/-- A cell put in its place by address. -/
def Memory.insert (c : Host.Cell) : Memory → Memory
  | [] => [c]
  | d :: m => if c.1 < d.1 then c :: d :: m else d :: Memory.insert c m

/-- Memory with no entry at an address. -/
def Memory.erase (m : Memory) (a : Nat) : Memory := m.filter (fun c => c.1 != a)

/-- Memory with a byte stored at an address, in canonical form. -/
def Memory.write (font : Font) (m : Memory) (a : Nat) (b : Byte) : Memory :=
  if b = unlisted font a then m.erase a else (m.erase a).insert (a, b)

/-- The bytes stored from an address on, in ascending order (R69, R332). -/
def Memory.writeAll (font : Font) : Memory → Nat → List Byte → Memory
  | m, _, [] => m
  | m, a, b :: bs => Memory.writeAll font (m.write font a b) (a + 1) bs

/-- An address reduced to 12 bits (R61; the spec's decision D2). -/
def reduceAddr (a : Word) : Nat := a.toNat % Config.memSize

/-- `MemRead(a, 1)` (R62). -/
def State.memRead (s : State) (a : Word) : Byte := s.mem.read s.font (reduceAddr a)

/-- `MemWrite(a, 1, b)` (R63). There is no write protection (R66). -/
def State.memWrite (s : State) (a : Word) (b : Byte) : State := { s with mem := s.mem.write s.font (reduceAddr a) b }

/-! ### General registers (R21) -/

/-- `V[r]`. -/
def State.getV (s : State) (r : Reg) : Byte := s.v[r.val]

/-- `V[r] <- b`. -/
def State.setV (s : State) (r : Reg) (b : Byte) : State := { s with v := s.v.set r.val b }

/-- The registers in ascending order. -/
def allRegs : List Reg := [0, 1, 2, 3, 4, 5, 6, 7, 8, 9, 10, 11, 12, 13, 14, 15]

/-- V0 to Vx, ascending (R224, R225). -/
def regsUpTo (x : Reg) : List Reg := allRegs.filter (fun k => decide (k ≤ x))

/-! ### The program counter (R25, R108) -/

/-- `pc <- pc + 2`, mod 2^16 (R25, R158). -/
def State.advance (s : State) : State := { s with pc := s.pc + 2 }

/-- `pc <- pc + 4` when the condition of a skip holds, else `pc <- pc + 2` (R108, R159). -/
def State.skipIf (c : Bool) (s : State) : State := { s with pc := if c then s.pc + 4 else s.pc + 2 }

/-- `pc <- target`. -/
def State.jump (s : State) (target : Word) : State := { s with pc := target }

/-! ### The call stack (R26, R27) -/

/-- Push a return address; `none` when 16 entries are valid (R152). -/
def State.push (s : State) (a : Word) : Option State :=
  if h : s.sp.val < 16 then
    some { s with stack := s.stack.set s.sp.val a, sp := ⟨s.sp.val + 1, by omega⟩ }
  else none

/-- Pop the newest return address; `none` when no entry is valid (R150). The entry keeps its value (R27). -/
def State.pop (s : State) : Option (Word × State) :=
  if h : 0 < s.sp.val then
    some (s.stack[s.sp.val - 1], { s with sp := ⟨s.sp.val - 1, by omega⟩ })
  else none

/-! ### The display (R29) -/

/-- Pixel (px, py) of a framebuffer (R29). -/
def pixelOn (fb : Framebuffer) (px : Fin 64) (py : Fin 32) : Bool := fb[py.val].getLsbD px.val

/-- `fb[j]` of the spec, the flat index: pixel (j mod 64, j / 64), so that `fb[py*64 + px]` is pixel (px, py) (R29). -/
def fbBit (fb : Framebuffer) (j : Fin 2048) : Bool := pixelOn fb ⟨j.val % 64, by omega⟩ ⟨j.val / 64, by omega⟩

/-- One pixel toggled: `fb[j] <- fb[j] XOR 1` (R138). -/
def togglePixel (fb : Framebuffer) (px : Fin 64) (py : Fin 32) : Framebuffer :=
  fb.set py.val (fb[py.val] ^^^ BitVec.twoPow 64 px.val)

/-- Every pixel off (R46, R130). -/
def blankDisplay : Framebuffer := Vector.replicate 32 0

/-- A column wrapped at the right edge: `n mod 64` (R136). -/
def wrapX (n : Nat) : Fin 64 := Fin.ofNat 64 n

/-- A row wrapped at the bottom edge: `n mod 32` (R136). -/
def wrapY (n : Nat) : Fin 32 := Fin.ofNat 32 n

/-! ### Keys (R31) -/

/-- `key[k]`. -/
def State.getKey (s : State) (k : KeyIndex) : Bool := s.key[k.val]

/-- `key[k] <- p`. -/
def State.setKey (s : State) (k : KeyIndex) (p : Bool) : State := { s with key := s.key.set k.val p }

/-! ### The random input (R42, R109) -/

/-- The draw of this STEP: the byte it samples, or a free value where nothing names it (R42; log 2). -/
def State.drawn (s : State) : Byte :=
  match s.rnd with
  | some b => b
  | none => Config.randomByte s.draws

/-- The draw is used up: only Cxnn consumes it (R109). -/
def State.consumeDraw (s : State) : State :=
  match s.rnd with
  | some _ => { s with rnd := none }
  | none => { s with draws := s.draws + 1 }

/-- A STEP samples its byte (R42). -/
def State.sample (s : State) (r : Option Byte) : State := { s with rnd := r }

/-- The end of a STEP: a byte that was not used has no effect and does not stay (R20, R109). -/
def State.dropSample (s : State) : State := { s with rnd := none }

/-! ### Faults (R290 to R299) -/

/-- The numeric code of a fault record (R290). -/
def FaultKind.code : FaultKind → Nat
  | .none => 0
  | .romTooLarge => 1
  | .unknownOpcode => 2
  | .stackOverflow => 3
  | .stackUnderflow => 4

/-- `raise kind(info)`: the record is written and nothing else changes; pc still addresses the instruction (R295). -/
def State.raise (s : State) (kind : FaultKind) (info : Word) : State := { s with fault := kind, faultWord := info }

end Sys2Proof.Machine
end

