-- ==== Sys2Proof/Machine/Flags.lean ====
section
/-! DEFINITION. The flag computations of the ALU (R187 to R191) and the order in which flag and result are written (R180).
The core has no flag but VF (R34). -/

namespace Sys2Proof.Machine

/-- A flag as VF holds it: 1 or 0. -/
def flagByte (c : Bool) : Byte := if c then 1 else 0

/-- Carry of an addition: the 9-bit sum is over 255 (R187). -/
def carry (vx vy : Byte) : Bool := decide (255 < vx.toNat + vy.toNat)

/-- Not-borrow of `a - b`: `a` is strictly greater (R188, R190). -/
def notBorrow (a b : Byte) : Bool := decide (b.toNat < a.toNat)

/-- The bit shifted out to the right: bit 0 (R189). -/
def shiftedOutRight (vx : Byte) : Bool := vx.getLsbD 0

/-- The bit shifted out to the left: bit 7 (R191). -/
def shiftedOutLeft (vx : Byte) : Bool := vx.getLsbD 7

/-- The writes of a flag-writing ALU instruction: VF first, then V[x]; so at x = 0xF the result stays (R180; the spec's
decision D6). -/
def State.writeFlagThenResult (s : State) (flag : Bool) (x : Reg) (result : Byte) : State :=
  (s.setV VF (flagByte flag)).setV x result

end Sys2Proof.Machine
end

