-- ==== Sys2Proof/Machine/Operands.lean ====
section
/-! DEFINITION. The operand forms: zero-extended immediates (R92), the index-plus-offset address (R226), the key that a
register selects (R252), the glyph address (R222) and the decimal digits (R223). -/

namespace Sys2Proof.Machine

/-- `zext_16(nnn)` (R92). -/
def zextAddr (nnn : Addr) : Word := nnn.zeroExtend 16

/-- `zext_16(b)` (R92). -/
def zextByte (b : Byte) : Word := b.zeroExtend 16

/-- The address `I + k` (R226). Memory reduces it mod 4096 (R61). -/
def State.effAddr (s : State) (k : Nat) : Word := s.i + BitVec.ofNat 16 k

/-- The key that a register value selects: its low 4 bits (R252; the spec's decision D11). -/
def selectedKey (vx : Byte) : KeyIndex := (vx.extractLsb' 0 4).toFin

/-- `zext_16(vx) * 5`, not masked to the low nibble (R222). -/
def glyphAddr (vx : Byte) : Word := zextByte vx * 5

/-- `floor(vx / 100)` (R223). -/
def hundreds (vx : Byte) : Byte := BitVec.ofNat 8 (vx.toNat / 100)

/-- `floor(vx / 10) mod 10` (R223). -/
def tens (vx : Byte) : Byte := BitVec.ofNat 8 (vx.toNat / 10 % 10)

/-- `vx mod 10` (R223). -/
def units (vx : Byte) : Byte := BitVec.ofNat 8 (vx.toNat % 10)

end Sys2Proof.Machine
end

