-- ==== Sys2Proof/Machine/Alu.lean ====
section
/-! DEFINITION. The register arithmetic, logic and random family (42_alu.md). Operands are read before any write (R180). -/

namespace Sys2Proof.Machine

/-- `6xnn` LD Vx, nn (R181). -/
def execLdByte (x : Reg) (nn : Byte) (s : State) : Host.Outcome State Fault Refusal :=
  .next (s.setV x nn).advance

/-- `7xnn` ADD Vx, nn (R182): wraps, no flag. -/
def execAddByte (x : Reg) (nn : Byte) (s : State) : Host.Outcome State Fault Refusal :=
  .next (s.setV x (s.getV x + nn)).advance

/-- `8xy0` LD Vx, Vy (R183). -/
def execLdReg (x y : Reg) (s : State) : Host.Outcome State Fault Refusal :=
  .next (s.setV x (s.getV y)).advance

/-- `8xy1` OR Vx, Vy (R184): VF is not touched unless x = 0xF. -/
def execOrReg (x y : Reg) (s : State) : Host.Outcome State Fault Refusal :=
  .next (s.setV x (s.getV x ||| s.getV y)).advance

/-- `8xy2` AND Vx, Vy (R185). -/
def execAndReg (x y : Reg) (s : State) : Host.Outcome State Fault Refusal :=
  .next (s.setV x (s.getV x &&& s.getV y)).advance

/-- `8xy3` XOR Vx, Vy (R186). -/
def execXorReg (x y : Reg) (s : State) : Host.Outcome State Fault Refusal :=
  .next (s.setV x (s.getV x ^^^ s.getV y)).advance

/-- `8xy4` ADD Vx, Vy (R187). -/
def execAddReg (x y : Reg) (s : State) : Host.Outcome State Fault Refusal :=
  .next (s.writeFlagThenResult (carry (s.getV x) (s.getV y)) x (s.getV x + s.getV y)).advance

/-- `8xy5` SUB Vx, Vy (R188). -/
def execSubReg (x y : Reg) (s : State) : Host.Outcome State Fault Refusal :=
  .next (s.writeFlagThenResult (notBorrow (s.getV x) (s.getV y)) x (s.getV x - s.getV y)).advance

/-- `8xy6` SHR Vx (R189): y is ignored. -/
def execShr (x : Reg) (s : State) : Host.Outcome State Fault Refusal :=
  .next (s.writeFlagThenResult (shiftedOutRight (s.getV x)) x (s.getV x >>> 1)).advance

/-- `8xy7` SUBN Vx, Vy (R190). -/
def execSubnReg (x y : Reg) (s : State) : Host.Outcome State Fault Refusal :=
  .next (s.writeFlagThenResult (notBorrow (s.getV y) (s.getV x)) x (s.getV y - s.getV x)).advance

/-- `8xyE` SHL Vx (R191): y is ignored. -/
def execShl (x : Reg) (s : State) : Host.Outcome State Fault Refusal :=
  .next (s.writeFlagThenResult (shiftedOutLeft (s.getV x)) x (s.getV x <<< 1)).advance

/-- `Cxnn` RND Vx, nn (R192): the draw of this STEP, masked; the draw is used up (R109). The draw is a free value where the
environment does not name it (log 2). -/
def execRnd (x : Reg) (nn : Byte) (s : State) : Host.Outcome State Fault Refusal :=
  .next (s.consumeDraw.setV x (s.drawn &&& nn)).advance

end Sys2Proof.Machine
end

