-- ==== Sys2Proof/Machine/Control.lean ====
section
/-! DEFINITION. The control family (41_control.md): return, jumps, call and the skips on registers. -/

namespace Sys2Proof.Machine

/-- `00EE` RET (R150): StackUnderflow when no entry is valid, precise (R293; the spec's decision D7). -/
def execRet (s : State) : Host.Outcome State Fault Refusal :=
  match s.pop with
  | some (a, s') => .next (s'.jump (a + 2))
  | none => .next (s.raise .stackUnderflow (encode .ret))

/-- `1nnn` JP nnn (R151). -/
def execJp (nnn : Addr) (s : State) : Host.Outcome State Fault Refusal :=
  .next (s.jump (zextAddr nnn))

/-- `2nnn` CALL nnn (R152): it pushes its own address; StackOverflow when 16 entries are valid, precise (R292; the spec's
decision D7). -/
def execCall (nnn : Addr) (s : State) : Host.Outcome State Fault Refusal :=
  match s.push s.pc with
  | some s' => .next (s'.jump (zextAddr nnn))
  | none => .next (s.raise .stackOverflow (encode (.call nnn)))

/-- `3xnn` SE Vx, nn (R153). -/
def execSeByte (x : Reg) (nn : Byte) (s : State) : Host.Outcome State Fault Refusal :=
  .next (s.skipIf (s.getV x == nn))

/-- `4xnn` SNE Vx, nn (R154). -/
def execSneByte (x : Reg) (nn : Byte) (s : State) : Host.Outcome State Fault Refusal :=
  .next (s.skipIf (s.getV x != nn))

/-- `5xy0` SE Vx, Vy (R155). -/
def execSeReg (x y : Reg) (s : State) : Host.Outcome State Fault Refusal :=
  .next (s.skipIf (s.getV x == s.getV y))

/-- `9xy0` SNE Vx, Vy (R156). -/
def execSneReg (x y : Reg) (s : State) : Host.Outcome State Fault Refusal :=
  .next (s.skipIf (s.getV x != s.getV y))

/-- `Bnnn` JP V0, nnn (R157): the sum is kept in 16 bits, not masked to 12. -/
def execJpV0 (nnn : Addr) (s : State) : Host.Outcome State Fault Refusal :=
  .next (s.jump (zextAddr nnn + zextByte (s.getV 0)))

end Sys2Proof.Machine
end

