-- ==== Sys2Proof/Machine/Display.lean ====
section
/-! DEFINITION. The display family (40_display.md): 00E0 and Dxyn with the collision detector. -/

namespace Sys2Proof.Machine

/-- `00E0` CLS (R130). -/
def execCls (s : State) : Host.Outcome State Fault Refusal :=
  .next { s with fb := blankDisplay, redraw := true }.advance

/-- A framebuffer being drawn on, and whether a set sprite bit has met a lit pixel so far (R137, R142). -/
abbrev Canvas := Framebuffer × Bool

/-- The bit of a sprite row that column `c` takes: bit 7 is the leftmost (R135; the spec's decision D12). -/
def spriteBit (b : Byte) (c : Nat) : Bool := b.getLsbD (7 - c)

/-- Column `c` of row `r`: a set bit tests the pixel it falls on, wrapped on both axes (R136), then toggles it; a clear bit
does neither (R137, R138). -/
def drawColumn (ox oy : Nat) (b : Byte) (r c : Nat) (d : Canvas) : Canvas :=
  if spriteBit b c then
    (togglePixel d.1 (wrapX (ox + c)) (wrapY (oy + r)), d.2 || pixelOn d.1 (wrapX (ox + c)) (wrapY (oy + r)))
  else d

/-- The 8 columns of a row (R131). -/
def drawRow (ox oy : Nat) (b : Byte) (r : Nat) (d : Canvas) : Canvas :=
  (List.range 8).foldl (fun d c => drawColumn ox oy b r c d) d

/-- The byte of sprite row `r`, read at `I + r` (R134). -/
def State.spriteRow (s : State) (r : Nat) : Byte := s.memRead (s.effAddr r)

/-- The `n` rows of a sprite (R131); none when n = 0 (R140). -/
def State.drawSprite (s : State) (ox oy n : Nat) : Canvas :=
  (List.range n).foldl (fun d r => drawRow ox oy (s.spriteRow r) r d) (s.fb, false)

/-- The column of a sprite's origin: `Vx mod 64`, from the value before VF is cleared (R132). -/
def State.originX (s : State) (x : Reg) : Nat := (s.getV x).toNat % Config.displayW

/-- The row of a sprite's origin: `Vy mod 32` (R132). -/
def State.originY (s : State) (y : Reg) : Nat := (s.getV y).toNat % Config.displayH

/-- `Dxyn` DRW Vx, Vy, n (R131 to R143). -/
def execDrw (x y : Reg) (n : Rows) (s : State) : Host.Outcome State Fault Refusal :=
  let d := s.drawSprite (s.originX x) (s.originY y) n.val
  .next ({ s with fb := d.1, redraw := true }.setV VF (flagByte d.2)).advance

end Sys2Proof.Machine
end

