-- ==== Sys2Proof/Machine/IndexMemory.lean ====
section
/-! DEFINITION. The index register and memory transfer family (43_index_memory.md). -/

namespace Sys2Proof.Machine

/-- `Annn` LD I, nnn (R220). -/
def execLdI (nnn : Addr) (s : State) : Host.Outcome State Fault Refusal :=
  .next { s with i := zextAddr nnn }.advance

/-- `Fx1E` ADD I, Vx (R221): mod 2^16, no flag. -/
def execAddIVx (x : Reg) (s : State) : Host.Outcome State Fault Refusal :=
  .next { s with i := s.i + zextByte (s.getV x) }.advance

/-- `Fx29` LD F, Vx (R222). -/
def execLdFVx (x : Reg) (s : State) : Host.Outcome State Fault Refusal :=
  .next { s with i := glyphAddr (s.getV x) }.advance

/-- `Fx33` LD B, Vx (R223): hundreds, tens, units at I, I + 1, I + 2. -/
def execLdBVx (x : Reg) (s : State) : Host.Outcome State Fault Refusal :=
  .next (((s.memWrite (s.effAddr 0) (hundreds (s.getV x))).memWrite (s.effAddr 1)
    (tens (s.getV x))).memWrite (s.effAddr 2) (units (s.getV x))).advance

/-- `for k in 0..x: MemWrite(I + k, 1, V[k])`, over a list of register indexes (R224). -/
def State.storeList (s : State) : List Reg → State
  | [] => s
  | k :: ks => State.storeList (s.memWrite (s.effAddr k.val) (s.getV k)) ks

/-- `for k in 0..x: V[k] <- MemRead(I + k, 1)`, over a list of register indexes (R225). -/
def State.loadList (s : State) : List Reg → State
  | [] => s
  | k :: ks => State.loadList (s.setV k (s.memRead (s.effAddr k.val))) ks

/-- `Fx55` LD [I], Vx (R224): I is not changed (the spec's decision D14). -/
def execStoreRegs (x : Reg) (s : State) : Host.Outcome State Fault Refusal :=
  .next (s.storeList (regsUpTo x)).advance

/-- `Fx65` LD Vx, [I] (R225): I is not changed (the spec's decision D14). -/
def execLoadRegs (x : Reg) (s : State) : Host.Outcome State Fault Refusal :=
  .next (s.loadList (regsUpTo x)).advance

end Sys2Proof.Machine
end

