-- ==== Sys2Proof/Machine/KeysTimers.lean ====
section
/-! DEFINITION. The keys and timers family (44_keys_timers.md, sections 1 to 3). The commands KEY and TICK stand in
Machine/Commands.lean. -/

namespace Sys2Proof.Machine

/-- `Ex9E` SKP Vx (R250). -/
def execSkp (x : Reg) (s : State) : Host.Outcome State Fault Refusal :=
  .next (s.skipIf (s.getKey (selectedKey (s.getV x))))

/-- `ExA1` SKNP Vx (R251). -/
def execSknp (x : Reg) (s : State) : Host.Outcome State Fault Refusal :=
  .next (s.skipIf (!s.getKey (selectedKey (s.getV x))))

/-- `Fx07` LD Vx, DT (R253). -/
def execLdVxDT (x : Reg) (s : State) : Host.Outcome State Fault Refusal :=
  .next (s.setV x s.dt).advance

/-- `Fx0A` LD Vx, K (R254): it enters the wait; pc does not move and V[x] is written by the key press that ends the wait. -/
def execLdVxK (x : Reg) (s : State) : Host.Outcome State Fault Refusal :=
  .next { s with kstate := .awaitingKey, ktarget := x }

/-- `Fx15` LD DT, Vx (R255). -/
def execLdDTVx (x : Reg) (s : State) : Host.Outcome State Fault Refusal :=
  .next { s with dt := s.getV x }.advance

/-- `Fx18` LD ST, Vx (R256): it emits no expiry signal. -/
def execLdSTVx (x : Reg) (s : State) : Host.Outcome State Fault Refusal :=
  .next { s with st := s.getV x }.advance

end Sys2Proof.Machine
end

