-- ==== Sys2Proof/Machine/Cycle.lean ====
section
/-! DEFINITION. The instruction cycle, the command STEP (30_encoding.md, section 4): sample, check, fetch, decode, execute. -/

namespace Sys2Proof.Machine

/-- Fetch: the two bytes at pc and pc + 1, the high byte first, both addresses reduced mod 4096 (R68, R106). -/
def State.fetchWord (s : State) : Word := wordOfBytes (s.memRead s.pc) (s.memRead (s.pc + 1))

/-- Fetch, decode and execute one instruction (R106 to R108). A word that matches no row raises UnknownOpcode (R107). -/
def State.runInstr (s : State) : Host.Outcome State Fault Refusal :=
  match decode s.fetchWord with
  | .ok i => exec i s
  | .error _ => .next (s.raise .unknownOpcode s.fetchWord)

/-- What `STEP` does with the byte it has sampled (R105): nothing when halted (R296), a stall while a key is awaited (R258), else one instruction. -/
def State.stepCore (s : State) : Host.Outcome State Fault Refusal :=
  match s.fault, s.kstate with
  | .none, .running => s.runInstr
  | .none, .awaitingKey => .next s
  | .romTooLarge, _ => .next s
  | .unknownOpcode, _ => .next s
  | .stackOverflow, _ => .next s
  | .stackUnderflow, _ => .next s

/-- `STEP(rnd)` (R105 to R109): the byte is sampled, the step taken, and the byte is gone, used or not (R20, R109). -/
def State.stepWith (s : State) (r : Option Byte) : Host.Outcome State Fault Refusal :=
  match (s.sample r).stepCore with
  | .next t => .next t.dropSample
  | .fault f => .fault f
  | .refused f => .refused f

/-- A word stored where the next fetch reads it, high byte first (R68, R106). -/
def State.placeWord (s : State) (w : Word) : State :=
  (s.memWrite s.pc (highByte w)).memWrite (s.pc + 1) (lowByte w)

/-- A state in which the very next step fetches: no command waits, no fault is recorded, no key is awaited (R105). -/
def State.readyToFetch (s : State) : State :=
  { s with pending := [], fault := .none, faultWord := 0x0000, kstate := .running }

end Sys2Proof.Machine
end

