-- ==== Sys2Proof/Machine/Commands.lean ====
section
/-! DEFINITION. The host commands as transitions of the whole state (R40, R41), and their outputs (R43). -/

namespace Sys2Proof.Machine

/-- `RESET` (R330): every element of R20 to its reset value, memory to `FONT` and zeros (R65). The free draws taken and the
commands that wait are the environment's, and `FONT` is a parameter: they stay (log 1, log 2, log 3). -/
def State.resetCore (s : State) : State :=
  { State.reset with draws := s.draws, pending := s.pending, font := s.font }

/-- `LOAD(bytes)` (R332 to R334): nothing while halted (R296); too many bytes are a fault and write none (R333). -/
def State.load (s : State) (bytes : List Byte) : State :=
  if s.fault ≠ .none then s
  else if Config.romMax < bytes.length then s.raise .romTooLarge 0x0000
  else { s with mem := s.mem.writeAll s.font Config.romBase bytes }

/-- One timer of `TICK`: decremented, never below 0 (R263, R264). -/
def tickDown (t : Byte) : Byte := if 0 < t.toNat then t - 1 else t

/-- The expiry of the sound timer: this tick moves it to exactly 0 (R264, R265). -/
def expires (t : Byte) : Bool := decide (0 < t.toNat) && (tickDown t == 0)

/-- `TICK` (R263, R264) and its output `expiry`. It acts the same whatever `kstate` and `fault` are (R266). -/
def State.tick (s : State) : State × Bool :=
  ({ s with dt := tickDown s.dt, st := tickDown s.st }, expires s.st)

/-- A press that ends the key wait: the target register takes the key's index, the wait ends and pc moves past the Fx0A
(R259; the spec's decision D9). -/
def State.acceptKey (s : State) (k : KeyIndex) : State :=
  { (s.setKey k true).setV s.ktarget (BitVec.ofNat 8 k.val) with kstate := .running }.advance

/-- `KEY(k, pressed)` (R259 to R261): a press while a key is awaited is accepted; every other event only updates the key
array. While halted no press is accepted (R297; DESIGN CHOICE, unsafe: log 6). -/
def State.keyEvent (s : State) (k : KeyIndex) (pressed : Bool) : State :=
  match pressed, s.kstate, s.fault with
  | true, .awaitingKey, .none => s.acceptKey k
  | _, _, _ => s.setKey k pressed

/-- `CLEAR_REDRAW` (R144). -/
def State.clearRedraw (s : State) : State := { s with redraw := false }

/-- One host command (R40). -/
def perform (c : Command) (s : State) : Host.Outcome State Fault Refusal :=
  match c with
  | .reset => .next s.resetCore
  | .load bytes => .next (s.load bytes)
  | .step r => s.stepWith r
  | .tick => .next s.tick.1
  | .key k p => .next (s.keyEvent k p)
  | .clearRedraw => .next s.clearRedraw

/-- What a command returns to the host (R43). -/
inductive Output where
  /-- RESET, KEY and CLEAR_REDRAW return nothing. -/
  | nothing
  /-- TICK returns `expiry` (R264). -/
  | expiry (b : Bool)
  /-- STEP and LOAD return OK. -/
  | ok
  /-- STEP and LOAD return the recorded fault with `fault_word` (R43, R296). -/
  | fault (kind : FaultKind) (word : Word)
  deriving DecidableEq, Repr

/-- The result of STEP and LOAD: OK, or the fault that is recorded once the command is done (R43, R295, R296). -/
def State.result (s : State) : Output :=
  match s.fault with
  | .none => .ok
  | k => .fault k s.faultWord

/-- The output of a command that took the core from `before` to `after` (R43; log 4). -/
def output (c : Command) (before after : State) : Output :=
  match c with
  | .reset => .nothing
  | .load _ => after.result
  | .step _ => after.result
  | .tick => .expiry before.tick.2
  | .key _ _ => .nothing
  | .clearRedraw => .nothing

/-- The host's next command: the oldest one waiting, else STEP with a free draw (R41, R42; log 2, log 3). -/
def State.issueNext (s : State) : Host.Outcome State Fault Refusal :=
  match s.pending with
  | [] => perform (.step none) s
  | c :: rest => perform c { s with pending := rest, rnd := none }

end Sys2Proof.Machine
end

