-- ==== Sys2Proof/Machine/Step.lean ====
section
/-! DEFINITION. One step of the machine, one host command (R41, R109), and the placing of an instruction where the next
step fetches it. -/

namespace Sys2Proof.Machine

/-- One step: the host's next command, which is STEP when no command waits. -/
def step (s : State) : Host.Outcome State Fault Refusal := s.issueNext

/-- The state with a table word stored at pc and everything cleared that keeps the next step from fetching it (R105, R106).
It stands for loading a program from outside (log 11). -/
def State.withFetchWord (s : State) (nbits w : Nat) : State := (s.placeWord (tableWord nbits w)).readyToFetch

end Sys2Proof.Machine
end

