-- ==== Sys2Proof/Safety.lean ====
section
/-! DEFINITION. What a safe run and the end of a run are, the invariant of the core, and the frame predicates in whose
terms claims say what a transition leaves unchanged. -/

namespace Sys2Proof.Machine

/-- No fault is recorded: the core is not halted (R33, R296). -/
abbrev State.Safe (s : State) : Prop := s.fault = .none

/-- The end of a run (R344): a halted state, or a jump to itself at pc with nothing waiting. -/
def State.Ended (s : State) : Prop :=
  ¬ s.Safe ∨ (s.kstate = .running ∧ ∃ nnn, decode s.fetchWord = .ok (.jp nnn) ∧ zextAddr nnn = s.pc)

/-- What every state the core reaches satisfies: memory is in canonical form (R60), and the fault record is one that R33
and R290 to R295 allow. A halted core that awaits a key can only have failed a LOAD (R333). No sampled byte is left between
commands (R20, R109). -/
structure State.Inv (s : State) : Prop where
  mem_wf : s.mem.wf s.font
  none_word : s.fault = .none → s.faultWord = 0x0000
  rom_word : s.fault = .romTooLarge → s.faultWord = 0x0000
  unknown_word : s.fault = .unknownOpcode → ∃ e, decode s.faultWord = .error e
  overflow_word : s.fault = .stackOverflow → s.sp = 16 ∧ ∃ nnn, decode s.faultWord = .ok (.call nnn)
  underflow_word : s.fault = .stackUnderflow → s.sp = 0 ∧ decode s.faultWord = .ok .ret
  awaiting_fault : s.kstate = .awaitingKey → s.fault = .none ∨ s.fault = .romTooLarge
  no_sample : s.rnd = none

/-! ### Frames -/

/-- Every byte of memory reads as before (R60, R62). -/
def SameMemory (s t : State) : Prop := ∀ a : Word, t.memRead a = s.memRead a

/-- Every byte of memory outside the given addresses reads as before. -/
def SameMemoryOutside (stored : Nat → Prop) (s t : State) : Prop :=
  ∀ a : Word, ¬ stored (reduceAddr a) → t.memRead a = s.memRead a

/-- Every general register outside the given ones is unchanged (R23). -/
def SameRegsBut (written : Reg → Prop) (s t : State) : Prop := ∀ r, ¬ written r → t.getV r = s.getV r

/-- Every general register is unchanged. -/
def SameRegs (s t : State) : Prop := ∀ r, t.getV r = s.getV r

/-- `I` is unchanged (R227). -/
def SameIndex (s t : State) : Prop := t.i = s.i

/-- The call stack is unchanged (R26). -/
def SameStack (s t : State) : Prop := t.stack = s.stack ∧ t.sp = s.sp

/-- Both timers are unchanged (R28). -/
def SameTimers (s t : State) : Prop := t.dt = s.dt ∧ t.st = s.st

/-- The framebuffer and the redraw flag are unchanged (R29, R30). -/
def SameDisplay (s t : State) : Prop := t.fb = s.fb ∧ t.redraw = s.redraw

/-- The key array and the key-input machine are unchanged (R31, R32). -/
def SameKeys (s t : State) : Prop := t.key = s.key ∧ t.kstate = s.kstate ∧ t.ktarget = s.ktarget

/-- The fault record is unchanged (R33). -/
def SameFault (s t : State) : Prop := t.fault = s.fault ∧ t.faultWord = s.faultWord

/-- The inputs of the core and the parameter `FONT`, which are the model's own fields, are unchanged (log 1, log 2, log 3). -/
def SameInputs (s t : State) : Prop :=
  t.rnd = s.rnd ∧ t.draws = s.draws ∧ t.pending = s.pending ∧ t.font = s.font

/-- The frame of an instruction that writes only the given registers and pc. -/
def OnlyRegs (written : Reg → Prop) (s t : State) : Prop :=
  SameRegsBut written s t ∧ SameMemory s t ∧ SameIndex s t ∧ SameStack s t ∧ SameTimers s t ∧ SameDisplay s t ∧
  SameKeys s t ∧ SameFault s t ∧ SameInputs s t

/-- The frame of an instruction that writes only pc. -/
def OnlyPc (s t : State) : Prop := OnlyRegs (fun _ => False) s t

/-- The frame of an instruction that writes only memory at the given addresses and pc. -/
def OnlyMemory (stored : Nat → Prop) (s t : State) : Prop :=
  SameMemoryOutside stored s t ∧ SameRegs s t ∧ SameIndex s t ∧ SameStack s t ∧ SameTimers s t ∧ SameDisplay s t ∧
  SameKeys s t ∧ SameFault s t ∧ SameInputs s t

/-- The frame of an instruction that writes only `I` and pc. -/
def OnlyIndex (s t : State) : Prop :=
  SameRegs s t ∧ SameMemory s t ∧ SameStack s t ∧ SameTimers s t ∧ SameDisplay s t ∧ SameKeys s t ∧ SameFault s t ∧
  SameInputs s t

/-- The frame of Dxyn: only the display, VF and pc are written. -/
def OnlyDisplayAndVF (s t : State) : Prop :=
  SameRegsBut (· = VF) s t ∧ SameMemory s t ∧ SameIndex s t ∧ SameStack s t ∧ SameTimers s t ∧ SameKeys s t ∧
  SameFault s t ∧ SameInputs s t

/-- The frame of 00E0: only the display and pc are written. -/
def OnlyDisplay (s t : State) : Prop := OnlyDisplayAndVF s t ∧ SameRegs s t

/-- The frame of 2nnn and 00EE when they complete: only the stack and pc are written. -/
def OnlyStack (s t : State) : Prop :=
  SameRegs s t ∧ SameMemory s t ∧ SameIndex s t ∧ SameTimers s t ∧ SameDisplay s t ∧ SameKeys s t ∧ SameFault s t ∧
  SameInputs s t

/-- Everything but the random input is unchanged outside the given register and pc: the frame of Cxnn. -/
def OnlyRegsAndDraw (written : Reg → Prop) (s t : State) : Prop :=
  SameRegsBut written s t ∧ SameMemory s t ∧ SameIndex s t ∧ SameStack s t ∧ SameTimers s t ∧ SameDisplay s t ∧
  SameKeys s t ∧ SameFault s t ∧ t.pending = s.pending ∧ t.font = s.font

/-- Everything but the timers and pc is unchanged. -/
def OnlyTimers (s t : State) : Prop :=
  SameRegs s t ∧ SameMemory s t ∧ SameIndex s t ∧ SameStack s t ∧ SameDisplay s t ∧ SameKeys s t ∧ SameFault s t ∧
  SameInputs s t

/-! ### Sprites -/

/-- Set bit `c` of sprite row `r` falls on pixel (px, py): row `r` is the byte at `I + r` (R134), column `c` its bit
`7 - c` (R135), and the pixel is wrapped on both axes (R136). -/
def State.SpriteBitAt (s : State) (ox oy r c : Nat) (px : Fin 64) (py : Fin 32) : Prop :=
  (s.memRead (s.effAddr r)).getLsbD (7 - c) = true ∧ (ox + c) % 64 = px.val ∧ (oy + r) % 32 = py.val

/-- Some set bit of the `n` rows of the sprite falls on pixel (px, py). -/
def State.SpriteCovers (s : State) (ox oy n : Nat) (px : Fin 64) (py : Fin 32) : Prop :=
  ∃ r < n, ∃ c < 8, s.SpriteBitAt ox oy r c px py

/-! ### What an instruction writes (R23 to R31) -/

/-- The general registers an instruction writes (R23). -/
def writesReg : Instr → Reg → Prop
  | .ldByte x _, r | .addByte x _, r | .ldReg x _, r | .orReg x _, r | .andReg x _, r | .xorReg x _, r | .rnd x _, r
  | .ldVxDT x, r => r = x
  | .addReg x _, r | .subReg x _, r | .shr x _, r | .subnReg x _, r | .shl x _, r => r = x ∨ r = VF
  | .drw _ _ _, r => r = VF
  | .loadRegs x, r => r ≤ x
  | .cls, _ | .ret, _ | .jp _, _ | .call _, _ | .seByte _ _, _ | .sneByte _ _, _ | .seReg _ _ _, _ | .sneReg _ _ _, _
  | .ldI _, _ | .jpV0 _, _ | .skp _, _ | .sknp _, _ | .ldVxK _, _ | .ldDTVx _, _ | .ldSTVx _, _ | .addIVx _, _
  | .ldFVx _, _ | .ldBVx _, _ | .storeRegs _, _ => False

/-- The addresses an instruction stores to in a state: those of R71, formed by the effective address of R226. -/
def State.storesTo (s : State) : Instr → Nat → Prop
  | .ldBVx _, a => ∃ k < 3, a = reduceAddr (s.effAddr k)
  | .storeRegs x, a => ∃ k : Reg, k ≤ x ∧ a = reduceAddr (s.effAddr k.val)
  | .cls, _ | .ret, _ | .jp _, _ | .call _, _ | .seByte _ _, _ | .sneByte _ _, _ | .seReg _ _ _, _ | .ldByte _ _, _
  | .addByte _ _, _ | .ldReg _ _, _ | .orReg _ _, _ | .andReg _ _, _ | .xorReg _ _, _ | .addReg _ _, _
  | .subReg _ _, _ | .shr _ _, _ | .subnReg _ _, _ | .shl _ _, _ | .sneReg _ _ _, _ | .ldI _, _ | .jpV0 _, _
  | .rnd _ _, _ | .drw _ _ _, _ | .skp _, _ | .sknp _, _ | .ldVxDT _, _ | .ldVxK _, _ | .ldDTVx _, _ | .ldSTVx _, _
  | .addIVx _, _ | .ldFVx _, _ | .loadRegs _, _ => False

end Sys2Proof.Machine
end

