-- ==== Sys2Proof/Certificates/Slice0/Obligations.lean ====
section
/-! DEFINITION. The statements for the provers. Each says what it formalises. Where a clause rests on a choice that the
spec marks as its own decision (D<n>) or on one of this model's log entries, the docstring names it. Two conventions run
through all of them and are not named again: every result on pc is kept mod 2^16 (R9, R25; the spec's decision D3), and a
byte of memory is read and stored at its address reduced mod 4096 (R61; the spec's decision D2). -/

open Sys2Proof Sys2Proof.Machine

/-! ### Encoding -/

/-- Decoding the word of an instruction gives the instruction back, for every instruction and every operand: no bit of an
encoding is dropped (R91 to R94; the ignored bits of R96 are kept as an operand, log 10). -/
def Obligations.DecodeOfEncodeIsTheInstruction : Prop :=
  ∀ i : Instr, decode (encode i) = .ok i

/-- A word has one meaning: an instruction that a word decodes to encodes to that word (R94; log 10). -/
def Obligations.EncodeOfDecodeIsTheWord : Prop :=
  ∀ (w : Word) (i : Instr), decode w = .ok i → encode i = w

/-- The decoder, which selects by group and sub-selector, recognises exactly the instances of the 34 patterns of R94's
table, gives each word the instruction of the row it matches, and no word matches two rows. -/
def Obligations.DecoderRecognisesExactlyTheTable : Prop :=
  patternTable.length = 34 ∧
  (∀ w : Word, (∃ i, decode w = .ok i) ↔ ∃ p ∈ patternTable, matchesPattern w p = true) ∧
  (∀ (w : Word) (i : Instr), decode w = .ok i → ∃ p, patternTable[i.row]? = some p ∧ matchesPattern w p = true) ∧
  ∀ (w : Word) (j k : Nat) (p q : Word × Word), patternTable[j]? = some p → patternTable[k]? = some q →
    matchesPattern w p = true → matchesPattern w q = true → j = k

/-- A word that is no instruction is rejected by its own name (R97). -/
def Obligations.UnknownWordIsRejectedByName : Prop :=
  ∀ (w : Word) (e : DecodeError), decode w = .error e → e = .unknownOpcode w

/-- Words written out from the layouts of R93 and R94, one of each format and family, decode to what they stand for. -/
def Obligations.WrittenOutWordsDecode : Prop :=
  decode 0b0000000011100000 = .ok .cls ∧
  decode 0b0000000011101110 = .ok .ret ∧
  decode 0b0010010000000001 = .ok (.call 0x401) ∧
  decode 0b0011000100100010 = .ok (.seByte 1 0x22) ∧
  decode 0b0101000100100001 = .ok (.seReg 1 2 1) ∧
  decode 0b1000001011110101 = .ok (.subReg 2 15) ∧
  decode 0b1101111000010101 = .ok (.drw 14 1 5) ∧
  decode 0b1110011010100001 = .ok (.sknp 6) ∧
  decode 0b1111101000001010 = .ok (.ldVxK 10) ∧
  decode 0b1111001101100101 = .ok (.loadRegs 3)

/-- The bits the core ignores have no effect: an instruction acts as the assembler's spelling of it, in every state (R96).
Every word `5xyN`, `9xyN`, `8xy6` and `8xyE` is an instruction, whatever its ignored nibble is. -/
def Obligations.IgnoredBitsHaveNoEffect : Prop :=
  (∀ (i : Instr) (s : State), exec i s = exec i.canonical s ∧ i.canonical.wellFormed = true) ∧
  (∀ (x y : Reg) (d : BitVec 4), decode (formatXY 0x5 x y d) = .ok (.seReg x y d) ∧
    decode (formatXY 0x9 x y d) = .ok (.sneReg x y d)) ∧
  (∀ x y : Reg, decode (formatXY 0x8 x y 0x6) = .ok (.shr x y) ∧ decode (formatXY 0x8 x y 0xE) = .ok (.shl x y))

/-! ### The instruction cycle and the step -/

/-- A step runs the decoded instruction: where no command waits and the core is neither halted nor awaiting a key, and the
bytes at pc and pc + 1, the high byte first, decode to `i`, the step is `i`'s effect on that state with a free draw at the
random input (R68, R105, R106). That the host issues STEP when no command waits is this model's convention (log 3), and that
its draw is then the free one (log 2). -/
def Obligations.StepRunsTheDecodedInstruction : Prop :=
  ∀ (s : State) (i : Instr), s.pending = [] → s.fault = .none → s.kstate = .running →
    decode (s.memRead s.pc ++ s.memRead (s.pc + 1)) = .ok i → step s = exec i { s with rnd := none }

/-- The command STEP(rnd) checks the state first: halted, it changes nothing and returns the recorded fault; else, awaiting a
key, it changes nothing and returns OK; else it fetches, decodes and executes one instruction with `rnd` as the draw of this
STEP, and returns OK or the fault that the instruction recorded, or it raises UnknownOpcode on a word that is none and returns
that (R105). In each case the byte sampled is gone afterwards (R20). -/
def Obligations.StepChecksHaltThenWaitThenExecutes : Prop :=
  ∀ (s : State) (r : Option Byte),
    (s.fault ≠ .none → ∃ t, perform (.step r) s = .next t ∧ t = { s with rnd := none } ∧
      output (.step r) s t = .fault s.fault s.faultWord) ∧
    (s.fault = .none → s.kstate = .awaitingKey → ∃ t, perform (.step r) s = .next t ∧ t = { s with rnd := none } ∧
      output (.step r) s t = .ok) ∧
    (s.fault = .none → s.kstate = .running →
      (∀ i, decode s.fetchWord = .ok i → ∃ u t, exec i { s with rnd := r } = .next u ∧ perform (.step r) s = .next t ∧
        t = { u with rnd := none } ∧ (u.fault = .none → output (.step r) s t = .ok) ∧
        (u.fault ≠ .none → output (.step r) s t = .fault u.fault u.faultWord)) ∧
      (∀ e, decode s.fetchWord = .error e → ∃ t, perform (.step r) s = .next t ∧
        t = { s with rnd := none, fault := .unknownOpcode, faultWord := s.fetchWord } ∧
        output (.step r) s t = .fault .unknownOpcode s.fetchWord))

/-- Where the fetched word matches no row, STEP raises UnknownOpcode with that word: no state changes except the fault
record, and pc still addresses the word (R107). The command returns that fault,
and the byte sampled is gone (R20). -/
def Obligations.UnmatchedWordRaisesUnknownOpcode : Prop :=
  ∀ (s : State) (r : Option Byte), s.fault = .none → s.kstate = .running →
    (∀ p ∈ patternTable, matchesPattern (s.memRead s.pc ++ s.memRead (s.pc + 1)) p = false) →
    ∃ t, perform (.step r) s = .next t ∧
      t = { s with rnd := none, fault := .unknownOpcode, faultWord := s.memRead s.pc ++ s.memRead (s.pc + 1) } ∧
      output (.step r) s t = .fault .unknownOpcode (s.memRead s.pc ++ s.memRead (s.pc + 1))

/-- A step with commands waiting performs the oldest of them; with none waiting it is STEP with a free draw. Neither depends on
a byte at the random input before it. This is the model's own convention for the host's free schedule (R41, R342; log 2,
log 3). -/
def Obligations.StepIssuesTheNextHostCommand : Prop :=
  ∀ s : State, (s.pending = [] → step s = perform (.step none) s) ∧
    ∀ c rest, s.pending = c :: rest → step s = perform c { s with pending := rest, rnd := none }

/-- Every command is defined in every state: a step always answers a next state, and so does every instruction (R345). -/
def Obligations.EveryStepAnswersNext : Prop :=
  (∀ s : State, ∃ t, step s = .next t) ∧ (∀ (i : Instr) (s : State), ∃ t, exec i s = .next t)

/-! ### Display -/

/-- 00E0 turns every pixel off and sets `redraw`; VF, registers, memory and `I` are unchanged (R130). -/
def Obligations.ClearScreenTurnsEveryPixelOff : Prop :=
  ∀ s : State, ∃ t, exec .cls s = .next t ∧ (∀ j : Fin 2048, fbBit t.fb j = false) ∧ t.redraw = true ∧
    t.pc = s.pc + 2 ∧ OnlyDisplay s t

/-- Dxyn toggles exactly the pixels that a set bit of the sprite falls on, from the origin (Vx mod 64, Vy mod 32), and sets
`redraw`, for every x, y (0xF too) and n (0 too) (R131 to R143). The bit order of a row is the spec's decision D12, the
origin at x or y = 0xF its D6, n = 0 its D13. -/
def Obligations.DrawTogglesExactlyTheSpritePixels : Prop :=
  ∀ (x y : Reg) (n : Rows) (s : State), ∃ t, exec (.drw x y n) s = .next t ∧
    (∀ px py,
      (s.SpriteCovers ((s.getV x).toNat % 64) ((s.getV y).toNat % 32) n.val px py → pixelOn t.fb px py = !pixelOn s.fb px py) ∧
      (¬ s.SpriteCovers ((s.getV x).toNat % 64) ((s.getV y).toNat % 32) n.val px py →
        pixelOn t.fb px py = pixelOn s.fb px py)) ∧
    t.redraw = true ∧ t.pc = s.pc + 2

/-- The collision detector: VF after Dxyn is 1 exactly when some set bit of some fetched row had its destination pixel on
before the instruction, otherwise 0 (R132, R133, R137, R142; the bit order is the spec's decision D12, the origin at x or
y = 0xF, from the value VF held before, its D6). -/
def Obligations.DrawSetsVFToTheCollision : Prop :=
  ∀ (x y : Reg) (n : Rows) (s : State), ∃ t, exec (.drw x y n) s = .next t ∧
    ((∃ px py, s.SpriteCovers ((s.getV x).toNat % 64) ((s.getV y).toNat % 32) n.val px py ∧ pixelOn s.fb px py = true) →
      t.getV VF = 1) ∧
    ((¬ ∃ px py, s.SpriteCovers ((s.getV x).toNat % 64) ((s.getV y).toNat % 32) n.val px py ∧ pixelOn s.fb px py = true) →
      t.getV VF = 0)

/-- The frame of Dxyn: only the display, VF and pc are written, and no byte of memory (R131, R134). -/
def Obligations.DrawFrame : Prop :=
  ∀ (x y : Reg) (n : Rows) (s t : State), exec (.drw x y n) s = .next t → OnlyDisplayAndVF s t

/-- The flat index of the framebuffer and the pixel coordinates name the same pixel: `fb[py*64 + px]` (R29; the layout of
the field is log 7). -/
def Obligations.FlatIndexNamesThePixel : Prop :=
  ∀ (fb : Framebuffer) (px : Fin 64) (py : Fin 32) (j : Fin 2048), j.val = py.val * 64 + px.val →
    fbBit fb j = pixelOn fb px py

/-! ### Control -/

/-- 1nnn makes nnn the next pc and changes nothing else (R151). -/
def Obligations.JumpGoesToNnn : Prop :=
  ∀ (nnn : Addr) (s : State), ∃ t, exec (.jp nnn) s = .next t ∧ t.pc.toNat = nnn.toNat ∧ OnlyPc s t

/-- Bnnn makes nnn + V0 the next pc, kept in 16 bits without masking, at most 0x10FE, and changes nothing else; x does not
select a register (R157). -/
def Obligations.IndexedJumpAddsV0 : Prop :=
  ∀ (nnn : Addr) (s : State), ∃ t, exec (.jpV0 nnn) s = .next t ∧ t.pc.toNat = nnn.toNat + (s.getV 0).toNat ∧
    t.pc.toNat ≤ 0x10FE ∧ OnlyPc s t

/-- 2nnn with room on the stack pushes its own address at `sp`, moves `sp` up and goes to nnn; with 16 valid entries it
raises StackOverflow with its own word and changes nothing else (R152, R292; the fault is the spec's decision D7). -/
def Obligations.CallPushesItsOwnAddress : Prop :=
  ∀ (nnn : Addr) (s : State),
    (s.sp.val < 16 → ∃ t, exec (.call nnn) s = .next t ∧ t.sp.val = s.sp.val + 1 ∧ t.pc.toNat = nnn.toNat ∧
      (∀ j : Fin 16, t.stack[j.val] = if j.val = s.sp.val then s.pc else s.stack[j.val]) ∧ OnlyStack s t) ∧
    (s.sp.val = 16 → exec (.call nnn) s = .next { s with fault := .stackOverflow, faultWord := encode (.call nnn) })

/-- 00EE with a valid entry moves `sp` down and goes to the newest return address plus 2, leaving the entry in place; with
none it raises StackUnderflow with its own word and changes nothing else (R150, R293; the fault is the spec's decision D7). -/
def Obligations.ReturnGoesToThePoppedAddressPlusTwo : Prop :=
  ∀ s : State,
    (∀ j : Fin 16, s.sp.val = j.val + 1 → ∃ t, exec .ret s = .next t ∧ t.sp.val = j.val ∧
      t.pc.toNat = (s.stack[j.val].toNat + 2) % 65536 ∧ t.stack = s.stack ∧ OnlyStack s t) ∧
    (s.sp.val = 0 → exec .ret s = .next { s with fault := .stackUnderflow, faultWord := 0x00EE })

/-- A subroutine round trip: a return from any state with the stack the call left comes back to the instruction after the
call, with `sp` as it was before the call (R150, R152; 95_test_vectors.md S6). -/
def Obligations.ReturnComesBackAfterTheCall : Prop :=
  ∀ (nnn : Addr) (s t u : State), s.sp.val < 16 → exec (.call nnn) s = .next t → u.stack = t.stack → u.sp = t.sp →
    ∃ v, exec .ret u = .next v ∧ v.pc = s.pc + 2 ∧ v.sp = s.sp

/-- 3xnn and 4xnn skip exactly when Vx equals, or differs from, nn: pc + 4 then, else pc + 2, and nothing else changes
(R153, R154). -/
def Obligations.SkipOnByteComparesVx : Prop :=
  ∀ (x : Reg) (nn : Byte) (s : State),
    (∃ t, exec (.seByte x nn) s = .next t ∧ (s.getV x = nn → t.pc = s.pc + 4) ∧ (s.getV x ≠ nn → t.pc = s.pc + 2) ∧ OnlyPc s t) ∧
    (∃ t, exec (.sneByte x nn) s = .next t ∧ (s.getV x ≠ nn → t.pc = s.pc + 4) ∧ (s.getV x = nn → t.pc = s.pc + 2) ∧ OnlyPc s t)

/-- 5xy0 and 9xy0, with any low nibble, skip exactly when Vx and Vy are equal, or differ: pc + 4 then, else pc + 2, and
nothing else changes; with x = y the first always skips and the second never (R155, R156). -/
def Obligations.SkipOnRegistersComparesVxVy : Prop :=
  ∀ (x y : Reg) (d : BitVec 4) (s : State),
    (∃ t, exec (.seReg x y d) s = .next t ∧ (s.getV x = s.getV y → t.pc = s.pc + 4) ∧
      (s.getV x ≠ s.getV y → t.pc = s.pc + 2) ∧ OnlyPc s t) ∧
    (∃ t, exec (.sneReg x y d) s = .next t ∧ (s.getV x ≠ s.getV y → t.pc = s.pc + 4) ∧
      (s.getV x = s.getV y → t.pc = s.pc + 2) ∧ OnlyPc s t) ∧
    (∃ t, exec (.seReg x x d) s = .next t ∧ t.pc = s.pc + 4) ∧ (∃ t, exec (.sneReg x x d) s = .next t ∧ t.pc = s.pc + 2)

/-! ### Arithmetic, logic, random -/

/-- 6xnn makes Vx nn; 7xnn makes it (Vx + nn) mod 256 with no flag: VF is unchanged unless x = 0xF (R181, R182). -/
def Obligations.ImmediateLoadAndAdd : Prop :=
  ∀ (x : Reg) (nn : Byte) (s : State),
    (∃ t, exec (.ldByte x nn) s = .next t ∧ t.getV x = nn ∧ t.pc = s.pc + 2 ∧ OnlyRegs (· = x) s t) ∧
    (∃ t, exec (.addByte x nn) s = .next t ∧ (t.getV x).toNat = ((s.getV x).toNat + nn.toNat) % 256 ∧ t.pc = s.pc + 2 ∧
      OnlyRegs (· = x) s t)

/-- 8xy0 to 8xy3 make Vx the value of Vy, or the bitwise or, and, xor of the two; no flag is written: VF is unchanged
unless x = 0xF (R183 to R186). -/
def Obligations.RegisterCopyAndLogic : Prop :=
  ∀ (x y : Reg) (s : State),
    (∃ t, exec (.ldReg x y) s = .next t ∧ t.getV x = s.getV y ∧ t.pc = s.pc + 2 ∧ OnlyRegs (· = x) s t) ∧
    (∃ t, exec (.orReg x y) s = .next t ∧
      (∀ j < 8, (t.getV x).getLsbD j = ((s.getV x).getLsbD j || (s.getV y).getLsbD j)) ∧ t.pc = s.pc + 2 ∧
      OnlyRegs (· = x) s t) ∧
    (∃ t, exec (.andReg x y) s = .next t ∧
      (∀ j < 8, (t.getV x).getLsbD j = ((s.getV x).getLsbD j && (s.getV y).getLsbD j)) ∧ t.pc = s.pc + 2 ∧
      OnlyRegs (· = x) s t) ∧
    (∃ t, exec (.xorReg x y) s = .next t ∧
      (∀ j < 8, (t.getV x).getLsbD j = ((s.getV x).getLsbD j ^^ (s.getV y).getLsbD j)) ∧ t.pc = s.pc + 2 ∧
      OnlyRegs (· = x) s t)

/-- 8xy4 makes Vx the sum mod 256 and VF the carry, 1 exactly when the sum is over 255; at x = 0xF the result stays in VF
(R187; the write order at x = 0xF is the spec's decision D6). -/
def Obligations.AddSetsTheCarry : Prop :=
  ∀ (x y : Reg) (s : State), ∃ t, exec (.addReg x y) s = .next t ∧
    (t.getV x).toNat = ((s.getV x).toNat + (s.getV y).toNat) % 256 ∧
    (x ≠ VF → t.getV VF = if (s.getV x).toNat + (s.getV y).toNat > 255 then 1 else 0) ∧
    t.pc = s.pc + 2 ∧ OnlyRegs (fun r => r = x ∨ r = VF) s t

/-- 8xy5 makes Vx the difference Vx - Vy mod 256 and 8xy7 the difference Vy - Vx; VF is 1 exactly when the first operand
is strictly greater; at x = 0xF the result stays in VF (R188, R190; the write order at x = 0xF is the spec's decision D6). -/
def Obligations.SubtractSetsNotBorrow : Prop :=
  ∀ (x y : Reg) (s : State),
    (∃ t, exec (.subReg x y) s = .next t ∧
      (t.getV x).toNat = ((s.getV x).toNat + 256 - (s.getV y).toNat) % 256 ∧
      (x ≠ VF → t.getV VF = if (s.getV x).toNat > (s.getV y).toNat then 1 else 0) ∧
      t.pc = s.pc + 2 ∧ OnlyRegs (fun r => r = x ∨ r = VF) s t) ∧
    (∃ t, exec (.subnReg x y) s = .next t ∧
      (t.getV x).toNat = ((s.getV y).toNat + 256 - (s.getV x).toNat) % 256 ∧
      (x ≠ VF → t.getV VF = if (s.getV y).toNat > (s.getV x).toNat then 1 else 0) ∧
      t.pc = s.pc + 2 ∧ OnlyRegs (fun r => r = x ∨ r = VF) s t)

/-- 8xy6 and 8xyE shift Vx, never Vy, by one bit and make VF the bit shifted out, whatever y is; at x = 0xF the result stays
in VF (R189, R191; the write order at x = 0xF is the spec's decision D6). -/
def Obligations.ShiftsMoveOneBitIntoVF : Prop :=
  ∀ (x y : Reg) (s : State),
    (∃ t, exec (.shr x y) s = .next t ∧ (t.getV x).toNat = (s.getV x).toNat / 2 ∧
      (x ≠ VF → (t.getV VF).toNat = (s.getV x).toNat % 2) ∧ t.pc = s.pc + 2 ∧
      OnlyRegs (fun r => r = x ∨ r = VF) s t) ∧
    (∃ t, exec (.shl x y) s = .next t ∧ (t.getV x).toNat = (s.getV x).toNat * 2 % 256 ∧
      (x ≠ VF → (t.getV VF).toNat = (s.getV x).toNat / 128) ∧ t.pc = s.pc + 2 ∧
      OnlyRegs (fun r => r = x ∨ r = VF) s t)

/-- Cxnn makes Vx the draw of the STEP masked by nn: for every byte at the random input, and where nothing names it for the
free value, whatever that is; the draw is then used up. The byte that the command STEP(rnd) presents is that draw (R192, R109,
R42; a free draw is the spec's decision D16, its form log 2). -/
def Obligations.RandomIsTheMaskedDraw : Prop :=
  ∀ (x : Reg) (nn : Byte) (s : State),
    (∀ b, s.rnd = some b → ∃ t, exec (.rnd x nn) s = .next t ∧ t.getV x = b &&& nn ∧ t.pc = s.pc + 2 ∧
      t.rnd = none ∧ t.draws = s.draws ∧ OnlyRegsAndDraw (· = x) s t) ∧
    (s.rnd = none → ∃ t, exec (.rnd x nn) s = .next t ∧ t.getV x = Config.randomByte s.draws &&& nn ∧ t.pc = s.pc + 2 ∧
      t.rnd = none ∧ t.draws = s.draws + 1 ∧ OnlyRegsAndDraw (· = x) s t) ∧
    (∀ b, s.fault = .none → s.kstate = .running → decode s.fetchWord = .ok (.rnd x nn) →
      ∃ t, perform (.step (some b)) s = .next t ∧ t.getV x = b &&& nn ∧ t.pc = s.pc + 2)

/-- The random input matters to Cxnn alone: any other instruction does the same whatever byte is presented and however many
draws were taken, and leaves the input as it is (R109; the form of the input is log 2). -/
def Obligations.RandomInputMattersOnlyToRnd : Prop :=
  ∀ (i : Instr) (s t : State) (r : Option Byte) (d : Nat), (∀ x nn, i ≠ .rnd x nn) → exec i s = .next t →
    exec i { s with rnd := r, draws := d } = .next { t with rnd := r, draws := d } ∧ t.rnd = s.rnd ∧ t.draws = s.draws

/-! ### Index register and memory -/

/-- Annn makes `I` nnn, Fx1E adds Vx to it mod 2^16 with no flag, Fx29 makes it 5 times Vx, not masked (R220 to R222). -/
def Obligations.IndexRegisterWrites : Prop :=
  (∀ (nnn : Addr) (s : State), ∃ t, exec (.ldI nnn) s = .next t ∧ t.i.toNat = nnn.toNat ∧ t.pc = s.pc + 2 ∧ OnlyIndex s t) ∧
  (∀ (x : Reg) (s : State),
    (∃ t, exec (.addIVx x) s = .next t ∧ t.i.toNat = (s.i.toNat + (s.getV x).toNat) % 65536 ∧ t.pc = s.pc + 2 ∧
      OnlyIndex s t) ∧
    (∃ t, exec (.ldFVx x) s = .next t ∧ t.i.toNat = (s.getV x).toNat * 5 ∧ t.pc = s.pc + 2 ∧ OnlyIndex s t))

/-- Fx33 stores the hundreds, tens and units of Vx at I, I + 1, I + 2, addresses reduced mod 4096, and no other byte; `I` is
unchanged (R223). -/
def Obligations.BcdStoresTheDecimalDigits : Prop :=
  ∀ (x : Reg) (s : State), ∃ t, exec (.ldBVx x) s = .next t ∧
    (t.memRead (s.effAddr 0)).toNat = (s.getV x).toNat / 100 ∧
    (t.memRead (s.effAddr 1)).toNat = (s.getV x).toNat / 10 % 10 ∧
    (t.memRead (s.effAddr 2)).toNat = (s.getV x).toNat % 10 ∧
    t.pc = s.pc + 2 ∧ OnlyMemory (fun a => ∃ k < 3, a = reduceAddr (s.effAddr k)) s t

/-- Fx55 stores V0 to Vx at I, I + 1, ..., addresses reduced mod 4096, and no other byte; `I` is unchanged (R224; that `I`
stays is the spec's decision D14). -/
def Obligations.StoreRegistersFromIndex : Prop :=
  ∀ (x : Reg) (s : State), ∃ t, exec (.storeRegs x) s = .next t ∧
    (∀ k : Reg, k ≤ x → t.memRead (s.effAddr k.val) = s.getV k) ∧
    t.pc = s.pc + 2 ∧ OnlyMemory (fun a => ∃ k : Reg, k ≤ x ∧ a = reduceAddr (s.effAddr k.val)) s t

/-- Fx65 loads V0 to Vx from I, I + 1, ..., addresses reduced mod 4096; registers above x, memory and `I` are unchanged
(R225; that `I` stays is the spec's decision D14). -/
def Obligations.LoadRegistersFromIndex : Prop :=
  ∀ (x : Reg) (s : State), ∃ t, exec (.loadRegs x) s = .next t ∧
    (∀ k : Reg, k ≤ x → t.getV k = s.memRead (s.effAddr k.val)) ∧
    t.pc = s.pc + 2 ∧ OnlyRegs (· ≤ x) s t

/-- A store into code takes effect at the next fetch: where Fx55 stored Vk and V(k+1) at the bytes the next instruction is
fetched from, the word fetched is Vk then V(k+1) (R75, an inference of the spec). -/
def Obligations.NextFetchSeesTheStoredCode : Prop :=
  ∀ (x k k' : Reg) (s t : State), k'.val = k.val + 1 → k' ≤ x → exec (.storeRegs x) s = .next t →
    t.pc = s.effAddr k.val → t.fetchWord = s.getV k ++ s.getV k'

/-! ### Keys and timers -/

/-- Ex9E skips exactly when the key that the low 4 bits of Vx select is pressed, ExA1 exactly when it is not; nothing else
changes (R250, R251; the reduction of the key index is R252, the spec's decision D11). -/
def Obligations.KeySkipsTestTheSelectedKey : Prop :=
  ∀ (x : Reg) (k : KeyIndex) (s : State), (s.getV x).toNat % 16 = k.val →
    (∃ t, exec (.skp x) s = .next t ∧ (s.getKey k = true → t.pc = s.pc + 4) ∧ (s.getKey k = false → t.pc = s.pc + 2) ∧
      OnlyPc s t) ∧
    (∃ t, exec (.sknp x) s = .next t ∧ (s.getKey k = false → t.pc = s.pc + 4) ∧ (s.getKey k = true → t.pc = s.pc + 2) ∧
      OnlyPc s t)

/-- Fx07 copies the delay timer into Vx; Fx15 and Fx18 copy Vx into the delay and the sound timer; nothing else changes, and
no expiry signal goes with it: only TICK emits one (R253, R255, R256). -/
def Obligations.TimerTransfers : Prop :=
  ∀ (x : Reg) (s : State),
    (∃ t, exec (.ldVxDT x) s = .next t ∧ t.getV x = s.dt ∧ t.pc = s.pc + 2 ∧ OnlyRegs (· = x) s t) ∧
    (∃ t, exec (.ldDTVx x) s = .next t ∧ t.dt = s.getV x ∧ t.st = s.st ∧ t.pc = s.pc + 2 ∧ OnlyTimers s t) ∧
    (∃ t, exec (.ldSTVx x) s = .next t ∧ t.st = s.getV x ∧ t.dt = s.dt ∧ t.pc = s.pc + 2 ∧ OnlyTimers s t ∧
      ∀ c b, c ≠ .tick → output c s t ≠ .expiry b)

/-- Fx0A enters the key wait and remembers x; pc does not advance and nothing else changes, whatever keys are held (R254). -/
def Obligations.KeyReadEntersTheWait : Prop :=
  ∀ (x : Reg) (s : State), ∃ t, exec (.ldVxK x) s = .next t ∧ t.kstate = .awaitingKey ∧ t.ktarget = x ∧ t.pc = s.pc ∧
    t.key = s.key ∧ SameRegs s t ∧ SameMemory s t ∧ SameIndex s t ∧ SameStack s t ∧ SameTimers s t ∧ SameDisplay s t ∧
    SameFault s t ∧ SameInputs s t

/-- Key acceptance: a press while a key is awaited sets the key's flag, writes its index into the target register, ends the
wait and moves pc past the Fx0A; nothing else changes (R259; the moment pc moves is the spec's decision D9). The premise
that no fault is recorded is R297's (log 6). -/
def Obligations.KeyPressEndsTheWait : Prop :=
  ∀ (k : KeyIndex) (s : State), s.kstate = .awaitingKey → s.fault = .none →
    ∃ t, perform (.key k true) s = .next t ∧ (∀ k', t.getKey k' = if k' = k then true else s.getKey k') ∧
      (t.getV s.ktarget).toNat = k.val ∧ t.kstate = .running ∧ t.ktarget = s.ktarget ∧ t.pc = s.pc + 2 ∧
      SameRegsBut (· = s.ktarget) s t ∧ SameMemory s t ∧ SameIndex s t ∧ SameStack s t ∧ SameTimers s t ∧
      SameDisplay s t ∧ SameFault s t ∧ SameInputs s t

/-- Every other key event only updates the key array: a release in any state, and any event while Running (R260). -/
def Obligations.OtherKeyEventsOnlyUpdateTheArray : Prop :=
  ∀ (k : KeyIndex) (p : Bool) (s : State), (p = false ∨ s.kstate = .running) →
    ∃ t, perform (.key k p) s = .next t ∧ (∀ k', t.getKey k' = if k' = k then p else s.getKey k') ∧
      t.kstate = s.kstate ∧ t.ktarget = s.ktarget ∧ t.pc = s.pc ∧ SameRegs s t ∧ SameMemory s t ∧ SameIndex s t ∧
      SameStack s t ∧ SameTimers s t ∧ SameDisplay s t ∧ SameFault s t ∧ SameInputs s t

/-- While halted, a key event only updates the key array, a press too, even where a key is awaited: no acceptance. Such a
state is reached only by an oversize LOAD during the key wait; R259 read alone would accept the press, R297 says that it
cannot, and the model follows R297 (this model's choice, log 6). -/
def Obligations.HaltedKeyEventsOnlyUpdateTheArray : Prop :=
  ∀ (k : KeyIndex) (p : Bool) (s : State), s.fault ≠ .none →
    ∃ t, perform (.key k p) s = .next t ∧ (∀ k', t.getKey k' = if k' = k then p else s.getKey k') ∧
      t.kstate = s.kstate ∧ t.ktarget = s.ktarget ∧ t.pc = s.pc ∧ SameRegs s t ∧ SameMemory s t ∧ SameIndex s t ∧
      SameStack s t ∧ SameTimers s t ∧ SameDisplay s t ∧ SameFault s t ∧ SameInputs s t

/-- TICK decrements each timer that is not 0 and never goes below 0; its `expiry` is 1 exactly when it moved the sound timer
from 1 to 0 (R263, R264). Whatever `kstate` and `fault` are, it does so and changes nothing else (R266, the spec's decision D26). -/
def Obligations.TickCountsDownAndSignalsExpiry : Prop :=
  ∀ s : State, ∃ t, perform .tick s = .next t ∧ t.dt.toNat = s.dt.toNat - 1 ∧ t.st.toNat = s.st.toNat - 1 ∧
    (output .tick s t = .expiry true ↔ s.st.toNat = 1 ∧ t.st.toNat = 0) ∧
    (output .tick s t = .expiry false ↔ ¬ (s.st.toNat = 1 ∧ t.st.toNat = 0)) ∧ t.pc = s.pc ∧ OnlyTimers s t

/-- The key-input machine: it is Running at construction; it goes from AwaitingKey to Running only when a key is consumed (or
at RESET, which is construction); it goes to AwaitingKey only by the instruction Fx0A, which is the one at pc and names the
target (R257; a step performs the oldest waiting command, log 3). -/
def Obligations.KeyMachineTransitions : Prop :=
  State.reset.kstate = .running ∧
  (∀ s t : State, step s = .next t → s.kstate = .awaitingKey → t.kstate = .running →
    (∃ k rest, s.pending = .key k true :: rest) ∨ ∃ rest, s.pending = .reset :: rest) ∧
  (∀ s t : State, step s = .next t → s.kstate = .running → t.kstate = .awaitingKey →
    decode s.fetchWord = .ok (.ldVxK t.ktarget))

/-! ### Faults -/

/-- Faults are precise: a STEP or a LOAD that records a fault changes nothing but the record, and returns it (R295, R43; the
spec's decision D8). The sampled byte of a STEP is gone afterwards (log 2). -/
def Obligations.FaultingCommandChangesOnlyTheRecord : Prop :=
  (∀ (r : Option Byte) (s t : State), s.fault = .none → perform (.step r) s = .next t → t.fault ≠ .none →
    t = { s with rnd := none, fault := t.fault, faultWord := t.faultWord } ∧
    output (.step r) s t = .fault t.fault t.faultWord) ∧
  (∀ (bytes : List Byte) (s t : State), s.fault = .none → perform (.load bytes) s = .next t → t.fault ≠ .none →
    t = { s with fault := .romTooLarge, faultWord := 0x0000 } ∧ 3584 < bytes.length ∧
    output (.load bytes) s t = .fault t.fault t.faultWord)

/-- Only RESET clears a fault: in a halted core every other command keeps the record, and RESET clears it, in any state (R298). -/
def Obligations.OnlyResetClearsAFault : Prop :=
  (∀ (c : Command) (s t : State), c ≠ .reset → s.fault ≠ .none → perform c s = .next t →
    t.fault = s.fault ∧ t.faultWord = s.faultWord) ∧
  (∀ s : State, ∃ t, perform .reset s = .next t ∧ t.fault = .none)

/-- While halted, STEP and LOAD change nothing, and return the recorded fault (R296; the spec's decision D8). The sampled byte
of a STEP is gone afterwards (log 2). -/
def Obligations.HaltedStepAndLoadChangeNothing : Prop :=
  ∀ s : State, s.fault ≠ .none →
    (∀ r, perform (.step r) s = .next { s with rnd := none } ∧
      output (.step r) s { s with rnd := none } = .fault s.fault s.faultWord) ∧
    (∀ bytes, perform (.load bytes) s = .next s ∧ output (.load bytes) s s = .fault s.fault s.faultWord)

/-- Among the instructions only 2nnn and 00EE raise a fault (R291), and the record they write is theirs (R292, R293; the
spec's decision D7). -/
def Obligations.OnlyCallAndReturnRaiseAFault : Prop :=
  ∀ (i : Instr) (s t : State), exec i s = .next t → (t.fault ≠ s.fault ∨ t.faultWord ≠ s.faultWord) →
    (i = .ret ∧ s.sp = 0 ∧ t.fault = .stackUnderflow ∧ t.faultWord = 0x00EE) ∨
    ∃ nnn, i = .call nnn ∧ s.sp = 16 ∧ t.fault = .stackOverflow ∧ t.faultWord = 0x2000 + zextAddr nnn

/-! ### Reset and load -/

/-- RESET, in any state, leaves every element of R20 at the value of R46's table, and the entry point 0x200 (R330, R46, R47).
The low 80 bytes are the parameter FONT, whatever it is (R65; the spec's decision D15). The values of `redraw`, `ktarget` and
the fault record are the spec's decisions D18, D19, D8. State.reset is that state for the default of FONT (log 1). The free
draws taken, the waiting commands and FONT are no state of the core and stay (log 1, log 2, log 3). -/
def Obligations.ResetGivesTheResetTable : Prop :=
  ∀ s : State, ∃ t, perform .reset s = .next t ∧
    (∀ a : Word, t.memRead a = if h : reduceAddr a < 80 then s.font[reduceAddr a] else 0) ∧
    (∀ r, t.getV r = 0) ∧ t.i = 0 ∧ t.pc = 0x200 ∧ (∀ j : Fin 16, t.stack[j.val] = 0) ∧ t.sp = 0 ∧ t.dt = 0 ∧ t.st = 0 ∧
    (∀ j : Fin 2048, fbBit t.fb j = false) ∧ t.redraw = false ∧ (∀ k, t.getKey k = false) ∧ t.kstate = .running ∧
    t.ktarget = 0 ∧ t.fault = .none ∧ t.faultWord = 0 ∧ t.rnd = none ∧ t.draws = s.draws ∧ t.pending = s.pending ∧
    t.font = s.font ∧ State.reset = { t with draws := 0, pending := [], font := defaultFont }

/-- After RESET the first STEP fetches from 0x200 and 0x201; so after RESET and a LOAD the first word fetched is the first two
bytes loaded, and the first STEP runs the instruction they are (R331). -/
def Obligations.FirstFetchAfterResetIsAt200 : Prop :=
  (∀ s : State, ∃ t, perform .reset s = .next t ∧ t.fetchWord = t.memRead 0x200 ++ t.memRead 0x201) ∧
  (∀ (s : State) (b0 b1 : Byte) (rest : List Byte), rest.length + 2 ≤ 3584 →
    ∃ t u, perform .reset s = .next t ∧ perform (.load (b0 :: b1 :: rest)) t = .next u ∧ u.fetchWord = b0 ++ b1 ∧
      ∀ i r, decode (b0 ++ b1) = .ok i →
        ∃ v, exec i { u with rnd := r } = .next v ∧ perform (.step r) u = .next { v with rnd := none })

/-- A LOAD of at most 3584 bytes with no fault recorded copies them to 0x200 on, returns OK and changes nothing else; an
empty one writes nothing (R332). -/
def Obligations.LoadCopiesTheBytes : Prop :=
  ∀ (bytes : List Byte) (s : State), bytes.length ≤ 3584 → s.fault = .none →
    ∃ t, perform (.load bytes) s = .next t ∧
      (∀ (j : Nat) (h : j < bytes.length), t.memRead (BitVec.ofNat 16 (0x200 + j)) = bytes[j]) ∧
      output (.load bytes) s t = .ok ∧ t.pc = s.pc ∧
      OnlyMemory (fun a => 0x200 ≤ a ∧ a < 0x200 + bytes.length) s t

/-- A LOAD of more than 3584 bytes writes no byte and records RomTooLarge, which it returns (R333; that nothing is copied is
the spec's decision D20). -/
def Obligations.OversizeLoadIsAFault : Prop :=
  ∀ (bytes : List Byte) (s : State), 3584 < bytes.length → s.fault = .none →
    ∃ t, perform (.load bytes) s = .next t ∧ t = { s with fault := .romTooLarge, faultWord := 0x0000 } ∧
      output (.load bytes) s t = .fault .romTooLarge 0x0000

/-- CLEAR_REDRAW clears `redraw` and changes nothing else (R144; the command's name is the spec's decision D29). -/
def Obligations.ClearRedrawOnlyClearsTheFlag : Prop :=
  ∀ s : State, ∃ t, perform .clearRedraw s = .next t ∧ t.redraw = false ∧ t.fb = s.fb ∧ t.pc = s.pc ∧ SameRegs s t ∧
    SameMemory s t ∧ SameIndex s t ∧ SameStack s t ∧ SameTimers s t ∧ SameKeys s t ∧ SameFault s t ∧ SameInputs s t

/-! ### Whole-machine rules -/

/-- An instruction writes no general register but those R23 names for it. -/
def Obligations.OnlyNamedRegistersAreWritten : Prop :=
  ∀ (i : Instr) (s t : State), exec i s = .next t → SameRegsBut (writesReg i) s t

/-- An instruction writes no byte of memory but those R71 names for it: three for Fx33, x + 1 for Fx55, else none. -/
def Obligations.OnlyNamedBytesAreStored : Prop :=
  ∀ (i : Instr) (s t : State), exec i s = .next t → SameMemoryOutside (s.storesTo i) s t

/-- Each other element of the state has its writers among the instructions and no other: `I` (R24), the stack (R26), the
timers (R28), the display (R29, R30), the key array (R31) and the key-input machine (R257). No instruction writes the waiting
commands (log 3) or the parameter FONT (R6; log 1). -/
def Obligations.StateElementsHaveOnlyTheirWriters : Prop :=
  ∀ (i : Instr) (s t : State), exec i s = .next t →
    (t.i = s.i ∨ (∃ nnn, i = .ldI nnn) ∨ (∃ x, i = .addIVx x) ∨ ∃ x, i = .ldFVx x) ∧
    (SameStack s t ∨ i = .ret ∨ ∃ nnn, i = .call nnn) ∧
    (t.dt = s.dt ∨ ∃ x, i = .ldDTVx x) ∧ (t.st = s.st ∨ ∃ x, i = .ldSTVx x) ∧
    (SameDisplay s t ∨ i = .cls ∨ ∃ x y n, i = .drw x y n) ∧ t.key = s.key ∧
    ((t.kstate = s.kstate ∧ t.ktarget = s.ktarget) ∨ ∃ x, i = .ldVxK x) ∧ t.pending = s.pending ∧ t.font = s.font

/-- Nothing but the state survives between commands: a step does not depend on a byte that an earlier STEP sampled, leaves
none behind, and a STEP does not depend on one either (R20, R42, R109; the field that holds the byte is log 2). And no command
changes the parameter FONT (R6; log 1). -/
def Obligations.NoSampledByteSurvivesACommand : Prop :=
  (∀ (s : State) (r : Option Byte), step { s with rnd := r } = step s) ∧
  (∀ (s : State) (r r' : Option Byte), perform (.step r') { s with rnd := r } = perform (.step r') s) ∧
  (∀ s t : State, step s = .next t → t.rnd = none ∧ t.font = s.font) ∧
  ∀ (r : Option Byte) (s t : State), perform (.step r) s = .next t → t.rnd = none ∧ t.font = s.font

/-- The state after reset meets the invariant. -/
def Obligations.ResetMeetsTheInvariant : Prop := State.reset.Inv

/-- Every step keeps the invariant: memory stays in canonical form, the fault record stays one that R33 and R290 to R295 allow,
and no sampled byte is left (R20, R109), whichever command the step performs (log 3). -/
def Obligations.EveryStepKeepsTheInvariant : Prop :=
  ∀ s t : State, s.Inv → step s = .next t → t.Inv

/-- The redraw flag covers every change of the display: over any number of steps with no RESET and no CLEAR_REDRAW among the
commands, a flag that is 0 at the end means that it was 0 at the start and that the framebuffer is the one at the start (R30,
R145; a run issues the commands that wait, log 3). -/
def Obligations.RedrawFlagCoversEveryDisplayChange : Prop :=
  ∀ (k : Nat) (s t : State), (∀ c ∈ s.pending, c ≠ .reset ∧ c ≠ .clearRedraw) → Host.Core.run core k s = .next t →
    t.redraw = false → s.redraw = false ∧ t.fb = s.fb

/-- The end of a run, a halted core or a jump to itself, is one: with no command waiting the step leaves all state unchanged
(R344; the definition is the spec's decision D34, and that the host then issues STEP is log 3). The sampled byte is gone after
the step, where a state that no run reaches held one (log 2). -/
def Obligations.EndedRunChangesNothing : Prop :=
  ∀ s : State, s.pending = [] → s.Ended → step s = .next { s with rnd := none }
end

