-- ==== Sys2Proof/Laws/Decode.lean ====
section
/-! SUPPORT. The fields of a word and the words of the formats, as numbers, and each field of each format. -/

namespace Sys2Proof

variable (w : Word) (o s : BitVec 4) (x y : Reg) (nn : Byte) (nnn : Addr)

/-! ### As numbers -/

theorem fieldOp_toNat : (fieldOp w).toNat = w.toNat / 4096 := by
  have := w.isLt
  simp only [fieldOp, BitVec.extractLsb'_toNat, Nat.shiftRight_eq_div_pow]
  omega

theorem fieldX_val : (fieldX w).val = w.toNat / 256 % 16 := by
  simp [fieldX, Nat.shiftRight_eq_div_pow]

theorem fieldY_val : (fieldY w).val = w.toNat / 16 % 16 := by
  simp [fieldY, Nat.shiftRight_eq_div_pow]

theorem fieldN_toNat : (fieldN w).toNat = w.toNat % 16 := by simp [fieldN]

theorem fieldNN_toNat : (fieldNN w).toNat = w.toNat % 256 := by simp [fieldNN]

theorem fieldNNN_toNat : (fieldNNN w).toNat = w.toNat % 4096 := by simp [fieldNNN]

theorem wordOfBytes_toNat (hi lo : Byte) : (wordOfBytes hi lo).toNat = hi.toNat * 256 + lo.toNat := by
  show (hi ++ lo : BitVec (8 + 8)).toNat = _
  rw [BitVec.toNat_append, ← Nat.shiftLeft_add_eq_or_of_lt lo.isLt, Nat.shiftLeft_eq]

theorem highByte_toNat : (highByte w).toNat = w.toNat / 256 := by
  have := w.isLt
  simp only [highByte, BitVec.extractLsb'_toNat, Nat.shiftRight_eq_div_pow]
  omega

theorem lowByte_toNat : (lowByte w).toNat = w.toNat % 256 := by simp [lowByte]

theorem formatA_toNat : (formatA o nnn).toNat = o.toNat * 4096 + nnn.toNat := by
  show (o ++ nnn : BitVec (4 + 12)).toNat = _
  rw [BitVec.toNat_append, ← Nat.shiftLeft_add_eq_or_of_lt nnn.isLt, Nat.shiftLeft_eq]

theorem formatXK_toNat : (formatXK o x nn).toNat = o.toNat * 4096 + x.val * 256 + nn.toNat := by
  show (o ++ BitVec.ofFin x ++ nn : BitVec (4 + 4 + 8)).toNat = _
  rw [BitVec.toNat_append, BitVec.toNat_append, ← Nat.shiftLeft_add_eq_or_of_lt nn.isLt,
    ← Nat.shiftLeft_add_eq_or_of_lt (show (BitVec.ofFin (w := 4) x).toNat < 2 ^ 4 from x.isLt)]
  simp only [Nat.shiftLeft_eq, BitVec.toNat_ofFin]
  omega

theorem formatXY_toNat : (formatXY o x y s).toNat = o.toNat * 4096 + x.val * 256 + y.val * 16 + s.toNat := by
  show (o ++ (BitVec.ofFin x : BitVec 4) ++ (BitVec.ofFin y : BitVec 4) ++ s : BitVec (4 + 4 + 4 + 4)).toNat = _
  rw [BitVec.toNat_append, BitVec.toNat_append, BitVec.toNat_append, ← Nat.shiftLeft_add_eq_or_of_lt s.isLt,
    ← Nat.shiftLeft_add_eq_or_of_lt (show (BitVec.ofFin (w := 4) x).toNat < 2 ^ 4 from x.isLt),
    ← Nat.shiftLeft_add_eq_or_of_lt (show (BitVec.ofFin (w := 4) y).toNat < 2 ^ 4 from y.isLt)]
  simp only [Nat.shiftLeft_eq, BitVec.toNat_ofFin]
  omega

/-! ### The fields of a format -/

@[simp] theorem fieldOp_formatA : fieldOp (formatA o nnn) = o := by
  have := nnn.isLt
  refine BitVec.eq_of_toNat_eq ?_
  rw [fieldOp_toNat, formatA_toNat]; omega

@[simp] theorem fieldNNN_formatA : fieldNNN (formatA o nnn) = nnn := by
  have := nnn.isLt
  refine BitVec.eq_of_toNat_eq ?_
  rw [fieldNNN_toNat, formatA_toNat]; omega

@[simp] theorem fieldOp_formatXK : fieldOp (formatXK o x nn) = o := by
  have := nn.isLt
  refine BitVec.eq_of_toNat_eq ?_
  rw [fieldOp_toNat, formatXK_toNat]; omega

@[simp] theorem fieldX_formatXK : fieldX (formatXK o x nn) = x := by
  have := nn.isLt
  refine Fin.eq_of_val_eq ?_
  rw [fieldX_val, formatXK_toNat]; omega

@[simp] theorem fieldNN_formatXK : fieldNN (formatXK o x nn) = nn := by
  have := nn.isLt
  refine BitVec.eq_of_toNat_eq ?_
  rw [fieldNN_toNat, formatXK_toNat]; omega

@[simp] theorem fieldOp_formatXY : fieldOp (formatXY o x y s) = o := by
  have := s.isLt
  refine BitVec.eq_of_toNat_eq ?_
  rw [fieldOp_toNat, formatXY_toNat]; omega

@[simp] theorem fieldX_formatXY : fieldX (formatXY o x y s) = x := by
  have := s.isLt
  refine Fin.eq_of_val_eq ?_
  rw [fieldX_val, formatXY_toNat]; omega

@[simp] theorem fieldY_formatXY : fieldY (formatXY o x y s) = y := by
  have := s.isLt
  refine Fin.eq_of_val_eq ?_
  rw [fieldY_val, formatXY_toNat]; omega

@[simp] theorem fieldN_formatXY : fieldN (formatXY o x y s) = s := by
  have := s.isLt
  refine BitVec.eq_of_toNat_eq ?_
  rw [fieldN_toNat, formatXY_toNat]; omega

/-! ### Bytes and words -/

@[simp] theorem highByte_wordOfBytes (hi lo : Byte) : highByte (wordOfBytes hi lo) = hi := by
  have := lo.isLt
  refine BitVec.eq_of_toNat_eq ?_
  rw [highByte_toNat, wordOfBytes_toNat]; omega

@[simp] theorem lowByte_wordOfBytes (hi lo : Byte) : lowByte (wordOfBytes hi lo) = lo := by
  have := lo.isLt
  refine BitVec.eq_of_toNat_eq ?_
  rw [lowByte_toNat, wordOfBytes_toNat]; omega

@[simp] theorem wordOfBytes_high_low : wordOfBytes (highByte w) (lowByte w) = w := by
  refine BitVec.eq_of_toNat_eq ?_
  rw [wordOfBytes_toNat, highByte_toNat, lowByte_toNat]; omega

/-- A word is its `op` field before its `nnn` field (R91). -/
theorem formatA_fields : formatA (fieldOp w) (fieldNNN w) = w := by
  refine BitVec.eq_of_toNat_eq ?_
  rw [formatA_toNat, fieldOp_toNat, fieldNNN_toNat]; omega

/-- A word is its fields `op`, `x` and `nn` (R91). -/
theorem formatXK_fields : formatXK (fieldOp w) (fieldX w) (fieldNN w) = w := by
  refine BitVec.eq_of_toNat_eq ?_
  rw [formatXK_toNat, fieldOp_toNat, fieldX_val, fieldNN_toNat]; omega

/-- A word is its four nibbles (R91). -/
theorem formatXY_fields : formatXY (fieldOp w) (fieldX w) (fieldY w) (fieldN w) = w := by
  refine BitVec.eq_of_toNat_eq ?_
  rw [formatXY_toNat, fieldOp_toNat, fieldX_val, fieldY_val, fieldN_toNat]; omega

/-! ### The masks of R94 -/

theorem formatA_and_mask : formatA o nnn &&& 0xF000 = formatA o 0 := by
  show (o ++ nnn : BitVec (4 + 12)) &&& ((0xF : BitVec 4) ++ (0 : BitVec 12)) = o ++ (0 : BitVec 12)
  have h : ∀ o : BitVec 4, o &&& 0xF = o := by decide
  rw [BitVec.and_append, h, show nnn &&& 0 = 0 from BitVec.and_zero]

theorem formatXY_and_mask : formatXY o x y s &&& 0xF00F = formatXY o 0 0 s := by
  show (o ++ regBits x ++ regBits y ++ s : BitVec (4 + 4 + 4 + 4)) &&&
    ((0xF : BitVec 4) ++ (0 : BitVec 4) ++ (0 : BitVec 4) ++ (0xF : BitVec 4)) = o ++ regBits 0 ++ regBits 0 ++ s
  have h : ∀ o : BitVec 4, o &&& 0xF = o := by decide
  have h0 : ∀ r : Reg, regBits r &&& 0 = regBits 0 := by decide
  rw [BitVec.and_append, BitVec.and_append, BitVec.and_append, h, h, h0, h0]

theorem formatXK_and_mask : formatXK o x nn &&& 0xF0FF = formatXK o 0 nn := by
  show (o ++ regBits x ++ nn : BitVec (4 + 4 + 8)) &&& ((0xF : BitVec 4) ++ (0 : BitVec 4) ++ (0xFF : BitVec 8)) =
    o ++ regBits 0 ++ nn
  have h : ∀ o : BitVec 4, o &&& 0xF = o := by decide
  have h8 : ∀ b : BitVec 8, b &&& 0xFF = b := by decide
  have h0 : ∀ r : Reg, regBits r &&& 0 = regBits 0 := by decide
  rw [BitVec.and_append, BitVec.and_append, h, h8, h0]

/-- Every word is in each of the three formats; so only `op` matters under the mask 0xF000. -/
theorem formatXK_and_maskA : formatXK o x nn &&& 0xF000 = formatA o 0 := by
  rw [← formatA_fields (formatXK o x nn), fieldOp_formatXK, formatA_and_mask]

theorem formatXY_and_maskA : formatXY o x y s &&& 0xF000 = formatA o 0 := by
  rw [← formatA_fields (formatXY o x y s), fieldOp_formatXY, formatA_and_mask]

end Sys2Proof
end

