-- ==== Sys2Proof/Laws/State.lean ====
section
/-! SUPPORT. One lemma per field and update of the state, and one per read and update, so that no proof unfolds a record
update. -/

namespace Sys2Proof.Machine

variable (s : State)

/-! ### `setV` -/

@[simp] theorem State.setV_mem (r : Reg) (b : Byte) : (s.setV r b).mem = s.mem := rfl
@[simp] theorem State.setV_i (r : Reg) (b : Byte) : (s.setV r b).i = s.i := rfl
@[simp] theorem State.setV_pc (r : Reg) (b : Byte) : (s.setV r b).pc = s.pc := rfl
@[simp] theorem State.setV_stack (r : Reg) (b : Byte) : (s.setV r b).stack = s.stack := rfl
@[simp] theorem State.setV_sp (r : Reg) (b : Byte) : (s.setV r b).sp = s.sp := rfl
@[simp] theorem State.setV_dt (r : Reg) (b : Byte) : (s.setV r b).dt = s.dt := rfl
@[simp] theorem State.setV_st (r : Reg) (b : Byte) : (s.setV r b).st = s.st := rfl
@[simp] theorem State.setV_fb (r : Reg) (b : Byte) : (s.setV r b).fb = s.fb := rfl
@[simp] theorem State.setV_redraw (r : Reg) (b : Byte) : (s.setV r b).redraw = s.redraw := rfl
@[simp] theorem State.setV_key (r : Reg) (b : Byte) : (s.setV r b).key = s.key := rfl
@[simp] theorem State.setV_kstate (r : Reg) (b : Byte) : (s.setV r b).kstate = s.kstate := rfl
@[simp] theorem State.setV_ktarget (r : Reg) (b : Byte) : (s.setV r b).ktarget = s.ktarget := rfl
@[simp] theorem State.setV_fault (r : Reg) (b : Byte) : (s.setV r b).fault = s.fault := rfl
@[simp] theorem State.setV_faultWord (r : Reg) (b : Byte) : (s.setV r b).faultWord = s.faultWord := rfl
@[simp] theorem State.setV_rnd (r : Reg) (b : Byte) : (s.setV r b).rnd = s.rnd := rfl
@[simp] theorem State.setV_draws (r : Reg) (b : Byte) : (s.setV r b).draws = s.draws := rfl
@[simp] theorem State.setV_pending (r : Reg) (b : Byte) : (s.setV r b).pending = s.pending := rfl
@[simp] theorem State.setV_font (r : Reg) (b : Byte) : (s.setV r b).font = s.font := rfl
@[simp] theorem State.setV_memRead (r : Reg) (b : Byte) (a' : Word) : (s.setV r b).memRead a' = s.memRead a' := rfl
@[simp] theorem State.setV_effAddr (r : Reg) (b : Byte) (n : Nat) : (s.setV r b).effAddr n = s.effAddr n := rfl
@[simp] theorem State.setV_getKey (r : Reg) (b : Byte) (k' : KeyIndex) : (s.setV r b).getKey k' = s.getKey k' := rfl

/-! ### `memWrite` -/

@[simp] theorem State.memWrite_v (a : Word) (b : Byte) : (s.memWrite a b).v = s.v := rfl
@[simp] theorem State.memWrite_i (a : Word) (b : Byte) : (s.memWrite a b).i = s.i := rfl
@[simp] theorem State.memWrite_pc (a : Word) (b : Byte) : (s.memWrite a b).pc = s.pc := rfl
@[simp] theorem State.memWrite_stack (a : Word) (b : Byte) : (s.memWrite a b).stack = s.stack := rfl
@[simp] theorem State.memWrite_sp (a : Word) (b : Byte) : (s.memWrite a b).sp = s.sp := rfl
@[simp] theorem State.memWrite_dt (a : Word) (b : Byte) : (s.memWrite a b).dt = s.dt := rfl
@[simp] theorem State.memWrite_st (a : Word) (b : Byte) : (s.memWrite a b).st = s.st := rfl
@[simp] theorem State.memWrite_fb (a : Word) (b : Byte) : (s.memWrite a b).fb = s.fb := rfl
@[simp] theorem State.memWrite_redraw (a : Word) (b : Byte) : (s.memWrite a b).redraw = s.redraw := rfl
@[simp] theorem State.memWrite_key (a : Word) (b : Byte) : (s.memWrite a b).key = s.key := rfl
@[simp] theorem State.memWrite_kstate (a : Word) (b : Byte) : (s.memWrite a b).kstate = s.kstate := rfl
@[simp] theorem State.memWrite_ktarget (a : Word) (b : Byte) : (s.memWrite a b).ktarget = s.ktarget := rfl
@[simp] theorem State.memWrite_fault (a : Word) (b : Byte) : (s.memWrite a b).fault = s.fault := rfl
@[simp] theorem State.memWrite_faultWord (a : Word) (b : Byte) : (s.memWrite a b).faultWord = s.faultWord := rfl
@[simp] theorem State.memWrite_rnd (a : Word) (b : Byte) : (s.memWrite a b).rnd = s.rnd := rfl
@[simp] theorem State.memWrite_draws (a : Word) (b : Byte) : (s.memWrite a b).draws = s.draws := rfl
@[simp] theorem State.memWrite_pending (a : Word) (b : Byte) : (s.memWrite a b).pending = s.pending := rfl
@[simp] theorem State.memWrite_font (a : Word) (b : Byte) : (s.memWrite a b).font = s.font := rfl
@[simp] theorem State.memWrite_getV (a : Word) (b : Byte) (r' : Reg) : (s.memWrite a b).getV r' = s.getV r' := rfl
@[simp] theorem State.memWrite_effAddr (a : Word) (b : Byte) (n : Nat) : (s.memWrite a b).effAddr n = s.effAddr n := rfl
@[simp] theorem State.memWrite_getKey (a : Word) (b : Byte) (k' : KeyIndex) : (s.memWrite a b).getKey k' = s.getKey k' := rfl

/-! ### `advance` -/

@[simp] theorem State.advance_mem : (s.advance).mem = s.mem := rfl
@[simp] theorem State.advance_v : (s.advance).v = s.v := rfl
@[simp] theorem State.advance_i : (s.advance).i = s.i := rfl
@[simp] theorem State.advance_stack : (s.advance).stack = s.stack := rfl
@[simp] theorem State.advance_sp : (s.advance).sp = s.sp := rfl
@[simp] theorem State.advance_dt : (s.advance).dt = s.dt := rfl
@[simp] theorem State.advance_st : (s.advance).st = s.st := rfl
@[simp] theorem State.advance_fb : (s.advance).fb = s.fb := rfl
@[simp] theorem State.advance_redraw : (s.advance).redraw = s.redraw := rfl
@[simp] theorem State.advance_key : (s.advance).key = s.key := rfl
@[simp] theorem State.advance_kstate : (s.advance).kstate = s.kstate := rfl
@[simp] theorem State.advance_ktarget : (s.advance).ktarget = s.ktarget := rfl
@[simp] theorem State.advance_fault : (s.advance).fault = s.fault := rfl
@[simp] theorem State.advance_faultWord : (s.advance).faultWord = s.faultWord := rfl
@[simp] theorem State.advance_rnd : (s.advance).rnd = s.rnd := rfl
@[simp] theorem State.advance_draws : (s.advance).draws = s.draws := rfl
@[simp] theorem State.advance_pending : (s.advance).pending = s.pending := rfl
@[simp] theorem State.advance_font : (s.advance).font = s.font := rfl
@[simp] theorem State.advance_getV (r' : Reg) : (s.advance).getV r' = s.getV r' := rfl
@[simp] theorem State.advance_memRead (a' : Word) : (s.advance).memRead a' = s.memRead a' := rfl
@[simp] theorem State.advance_effAddr (n : Nat) : (s.advance).effAddr n = s.effAddr n := rfl
@[simp] theorem State.advance_getKey (k' : KeyIndex) : (s.advance).getKey k' = s.getKey k' := rfl

/-! ### `skipIf` -/

@[simp] theorem State.skipIf_mem (c : Bool) : (s.skipIf c).mem = s.mem := rfl
@[simp] theorem State.skipIf_v (c : Bool) : (s.skipIf c).v = s.v := rfl
@[simp] theorem State.skipIf_i (c : Bool) : (s.skipIf c).i = s.i := rfl
@[simp] theorem State.skipIf_stack (c : Bool) : (s.skipIf c).stack = s.stack := rfl
@[simp] theorem State.skipIf_sp (c : Bool) : (s.skipIf c).sp = s.sp := rfl
@[simp] theorem State.skipIf_dt (c : Bool) : (s.skipIf c).dt = s.dt := rfl
@[simp] theorem State.skipIf_st (c : Bool) : (s.skipIf c).st = s.st := rfl
@[simp] theorem State.skipIf_fb (c : Bool) : (s.skipIf c).fb = s.fb := rfl
@[simp] theorem State.skipIf_redraw (c : Bool) : (s.skipIf c).redraw = s.redraw := rfl
@[simp] theorem State.skipIf_key (c : Bool) : (s.skipIf c).key = s.key := rfl
@[simp] theorem State.skipIf_kstate (c : Bool) : (s.skipIf c).kstate = s.kstate := rfl
@[simp] theorem State.skipIf_ktarget (c : Bool) : (s.skipIf c).ktarget = s.ktarget := rfl
@[simp] theorem State.skipIf_fault (c : Bool) : (s.skipIf c).fault = s.fault := rfl
@[simp] theorem State.skipIf_faultWord (c : Bool) : (s.skipIf c).faultWord = s.faultWord := rfl
@[simp] theorem State.skipIf_rnd (c : Bool) : (s.skipIf c).rnd = s.rnd := rfl
@[simp] theorem State.skipIf_draws (c : Bool) : (s.skipIf c).draws = s.draws := rfl
@[simp] theorem State.skipIf_pending (c : Bool) : (s.skipIf c).pending = s.pending := rfl
@[simp] theorem State.skipIf_font (c : Bool) : (s.skipIf c).font = s.font := rfl
@[simp] theorem State.skipIf_getV (c : Bool) (r' : Reg) : (s.skipIf c).getV r' = s.getV r' := rfl
@[simp] theorem State.skipIf_memRead (c : Bool) (a' : Word) : (s.skipIf c).memRead a' = s.memRead a' := rfl
@[simp] theorem State.skipIf_effAddr (c : Bool) (n : Nat) : (s.skipIf c).effAddr n = s.effAddr n := rfl
@[simp] theorem State.skipIf_getKey (c : Bool) (k' : KeyIndex) : (s.skipIf c).getKey k' = s.getKey k' := rfl

/-! ### `jump` -/

@[simp] theorem State.jump_mem (a : Word) : (s.jump a).mem = s.mem := rfl
@[simp] theorem State.jump_v (a : Word) : (s.jump a).v = s.v := rfl
@[simp] theorem State.jump_i (a : Word) : (s.jump a).i = s.i := rfl
@[simp] theorem State.jump_stack (a : Word) : (s.jump a).stack = s.stack := rfl
@[simp] theorem State.jump_sp (a : Word) : (s.jump a).sp = s.sp := rfl
@[simp] theorem State.jump_dt (a : Word) : (s.jump a).dt = s.dt := rfl
@[simp] theorem State.jump_st (a : Word) : (s.jump a).st = s.st := rfl
@[simp] theorem State.jump_fb (a : Word) : (s.jump a).fb = s.fb := rfl
@[simp] theorem State.jump_redraw (a : Word) : (s.jump a).redraw = s.redraw := rfl
@[simp] theorem State.jump_key (a : Word) : (s.jump a).key = s.key := rfl
@[simp] theorem State.jump_kstate (a : Word) : (s.jump a).kstate = s.kstate := rfl
@[simp] theorem State.jump_ktarget (a : Word) : (s.jump a).ktarget = s.ktarget := rfl
@[simp] theorem State.jump_fault (a : Word) : (s.jump a).fault = s.fault := rfl
@[simp] theorem State.jump_faultWord (a : Word) : (s.jump a).faultWord = s.faultWord := rfl
@[simp] theorem State.jump_rnd (a : Word) : (s.jump a).rnd = s.rnd := rfl
@[simp] theorem State.jump_draws (a : Word) : (s.jump a).draws = s.draws := rfl
@[simp] theorem State.jump_pending (a : Word) : (s.jump a).pending = s.pending := rfl
@[simp] theorem State.jump_font (a : Word) : (s.jump a).font = s.font := rfl
@[simp] theorem State.jump_getV (a : Word) (r' : Reg) : (s.jump a).getV r' = s.getV r' := rfl
@[simp] theorem State.jump_memRead (a : Word) (a' : Word) : (s.jump a).memRead a' = s.memRead a' := rfl
@[simp] theorem State.jump_effAddr (a : Word) (n : Nat) : (s.jump a).effAddr n = s.effAddr n := rfl
@[simp] theorem State.jump_getKey (a : Word) (k' : KeyIndex) : (s.jump a).getKey k' = s.getKey k' := rfl

/-! ### `setKey` -/

@[simp] theorem State.setKey_mem (k : KeyIndex) (p : Bool) : (s.setKey k p).mem = s.mem := rfl
@[simp] theorem State.setKey_v (k : KeyIndex) (p : Bool) : (s.setKey k p).v = s.v := rfl
@[simp] theorem State.setKey_i (k : KeyIndex) (p : Bool) : (s.setKey k p).i = s.i := rfl
@[simp] theorem State.setKey_pc (k : KeyIndex) (p : Bool) : (s.setKey k p).pc = s.pc := rfl
@[simp] theorem State.setKey_stack (k : KeyIndex) (p : Bool) : (s.setKey k p).stack = s.stack := rfl
@[simp] theorem State.setKey_sp (k : KeyIndex) (p : Bool) : (s.setKey k p).sp = s.sp := rfl
@[simp] theorem State.setKey_dt (k : KeyIndex) (p : Bool) : (s.setKey k p).dt = s.dt := rfl
@[simp] theorem State.setKey_st (k : KeyIndex) (p : Bool) : (s.setKey k p).st = s.st := rfl
@[simp] theorem State.setKey_fb (k : KeyIndex) (p : Bool) : (s.setKey k p).fb = s.fb := rfl
@[simp] theorem State.setKey_redraw (k : KeyIndex) (p : Bool) : (s.setKey k p).redraw = s.redraw := rfl
@[simp] theorem State.setKey_kstate (k : KeyIndex) (p : Bool) : (s.setKey k p).kstate = s.kstate := rfl
@[simp] theorem State.setKey_ktarget (k : KeyIndex) (p : Bool) : (s.setKey k p).ktarget = s.ktarget := rfl
@[simp] theorem State.setKey_fault (k : KeyIndex) (p : Bool) : (s.setKey k p).fault = s.fault := rfl
@[simp] theorem State.setKey_faultWord (k : KeyIndex) (p : Bool) : (s.setKey k p).faultWord = s.faultWord := rfl
@[simp] theorem State.setKey_rnd (k : KeyIndex) (p : Bool) : (s.setKey k p).rnd = s.rnd := rfl
@[simp] theorem State.setKey_draws (k : KeyIndex) (p : Bool) : (s.setKey k p).draws = s.draws := rfl
@[simp] theorem State.setKey_pending (k : KeyIndex) (p : Bool) : (s.setKey k p).pending = s.pending := rfl
@[simp] theorem State.setKey_font (k : KeyIndex) (p : Bool) : (s.setKey k p).font = s.font := rfl
@[simp] theorem State.setKey_getV (k : KeyIndex) (p : Bool) (r' : Reg) : (s.setKey k p).getV r' = s.getV r' := rfl
@[simp] theorem State.setKey_memRead (k : KeyIndex) (p : Bool) (a' : Word) : (s.setKey k p).memRead a' = s.memRead a' := rfl
@[simp] theorem State.setKey_effAddr (k : KeyIndex) (p : Bool) (n : Nat) : (s.setKey k p).effAddr n = s.effAddr n := rfl

/-! ### `raise` -/

@[simp] theorem State.raise_mem (kind : FaultKind) (info : Word) : (s.raise kind info).mem = s.mem := rfl
@[simp] theorem State.raise_v (kind : FaultKind) (info : Word) : (s.raise kind info).v = s.v := rfl
@[simp] theorem State.raise_i (kind : FaultKind) (info : Word) : (s.raise kind info).i = s.i := rfl
@[simp] theorem State.raise_pc (kind : FaultKind) (info : Word) : (s.raise kind info).pc = s.pc := rfl
@[simp] theorem State.raise_stack (kind : FaultKind) (info : Word) : (s.raise kind info).stack = s.stack := rfl
@[simp] theorem State.raise_sp (kind : FaultKind) (info : Word) : (s.raise kind info).sp = s.sp := rfl
@[simp] theorem State.raise_dt (kind : FaultKind) (info : Word) : (s.raise kind info).dt = s.dt := rfl
@[simp] theorem State.raise_st (kind : FaultKind) (info : Word) : (s.raise kind info).st = s.st := rfl
@[simp] theorem State.raise_fb (kind : FaultKind) (info : Word) : (s.raise kind info).fb = s.fb := rfl
@[simp] theorem State.raise_redraw (kind : FaultKind) (info : Word) : (s.raise kind info).redraw = s.redraw := rfl
@[simp] theorem State.raise_key (kind : FaultKind) (info : Word) : (s.raise kind info).key = s.key := rfl
@[simp] theorem State.raise_kstate (kind : FaultKind) (info : Word) : (s.raise kind info).kstate = s.kstate := rfl
@[simp] theorem State.raise_ktarget (kind : FaultKind) (info : Word) : (s.raise kind info).ktarget = s.ktarget := rfl
@[simp] theorem State.raise_rnd (kind : FaultKind) (info : Word) : (s.raise kind info).rnd = s.rnd := rfl
@[simp] theorem State.raise_draws (kind : FaultKind) (info : Word) : (s.raise kind info).draws = s.draws := rfl
@[simp] theorem State.raise_pending (kind : FaultKind) (info : Word) : (s.raise kind info).pending = s.pending := rfl
@[simp] theorem State.raise_font (kind : FaultKind) (info : Word) : (s.raise kind info).font = s.font := rfl
@[simp] theorem State.raise_getV (kind : FaultKind) (info : Word) (r' : Reg) : (s.raise kind info).getV r' = s.getV r' := rfl
@[simp] theorem State.raise_memRead (kind : FaultKind) (info : Word) (a' : Word) : (s.raise kind info).memRead a' = s.memRead a' := rfl
@[simp] theorem State.raise_effAddr (kind : FaultKind) (info : Word) (n : Nat) : (s.raise kind info).effAddr n = s.effAddr n := rfl
@[simp] theorem State.raise_getKey (kind : FaultKind) (info : Word) (k' : KeyIndex) : (s.raise kind info).getKey k' = s.getKey k' := rfl

/-! ### The fields an update writes -/

@[simp] theorem State.setV_v (r : Reg) (b : Byte) : (s.setV r b).v = s.v.set r.val b := rfl
@[simp] theorem State.memWrite_mem (a : Word) (b : Byte) :
    (s.memWrite a b).mem = s.mem.write s.font (reduceAddr a) b := rfl
@[simp] theorem State.advance_pc : s.advance.pc = s.pc + 2 := rfl
@[simp] theorem State.skipIf_pc (c : Bool) : (s.skipIf c).pc = if c then s.pc + 4 else s.pc + 2 := rfl
@[simp] theorem State.jump_pc (a : Word) : (s.jump a).pc = a := rfl
@[simp] theorem State.setKey_key (k : KeyIndex) (p : Bool) : (s.setKey k p).key = s.key.set k.val p := rfl
@[simp] theorem State.raise_fault (kind : FaultKind) (info : Word) : (s.raise kind info).fault = kind := rfl
@[simp] theorem State.raise_faultWord (kind : FaultKind) (info : Word) : (s.raise kind info).faultWord = info := rfl

/-! ### `consumeDraw` -/

@[simp] theorem State.consumeDraw_mem : s.consumeDraw.mem = s.mem := by
  unfold State.consumeDraw; split <;> rfl
@[simp] theorem State.consumeDraw_v : s.consumeDraw.v = s.v := by
  unfold State.consumeDraw; split <;> rfl
@[simp] theorem State.consumeDraw_i : s.consumeDraw.i = s.i := by
  unfold State.consumeDraw; split <;> rfl
@[simp] theorem State.consumeDraw_pc : s.consumeDraw.pc = s.pc := by
  unfold State.consumeDraw; split <;> rfl
@[simp] theorem State.consumeDraw_stack : s.consumeDraw.stack = s.stack := by
  unfold State.consumeDraw; split <;> rfl
@[simp] theorem State.consumeDraw_sp : s.consumeDraw.sp = s.sp := by
  unfold State.consumeDraw; split <;> rfl
@[simp] theorem State.consumeDraw_dt : s.consumeDraw.dt = s.dt := by
  unfold State.consumeDraw; split <;> rfl
@[simp] theorem State.consumeDraw_st : s.consumeDraw.st = s.st := by
  unfold State.consumeDraw; split <;> rfl
@[simp] theorem State.consumeDraw_fb : s.consumeDraw.fb = s.fb := by
  unfold State.consumeDraw; split <;> rfl
@[simp] theorem State.consumeDraw_redraw : s.consumeDraw.redraw = s.redraw := by
  unfold State.consumeDraw; split <;> rfl
@[simp] theorem State.consumeDraw_key : s.consumeDraw.key = s.key := by
  unfold State.consumeDraw; split <;> rfl
@[simp] theorem State.consumeDraw_kstate : s.consumeDraw.kstate = s.kstate := by
  unfold State.consumeDraw; split <;> rfl
@[simp] theorem State.consumeDraw_ktarget : s.consumeDraw.ktarget = s.ktarget := by
  unfold State.consumeDraw; split <;> rfl
@[simp] theorem State.consumeDraw_fault : s.consumeDraw.fault = s.fault := by
  unfold State.consumeDraw; split <;> rfl
@[simp] theorem State.consumeDraw_faultWord : s.consumeDraw.faultWord = s.faultWord := by
  unfold State.consumeDraw; split <;> rfl
@[simp] theorem State.consumeDraw_pending : s.consumeDraw.pending = s.pending := by
  unfold State.consumeDraw; split <;> rfl
@[simp] theorem State.consumeDraw_font : s.consumeDraw.font = s.font := by
  unfold State.consumeDraw; split <;> rfl
@[simp] theorem State.consumeDraw_getV (r' : Reg) : s.consumeDraw.getV r' = s.getV r' := by
  unfold State.consumeDraw; split <;> rfl
@[simp] theorem State.consumeDraw_memRead (a' : Word) : s.consumeDraw.memRead a' = s.memRead a' := by
  unfold State.consumeDraw; split <;> rfl
@[simp] theorem State.consumeDraw_effAddr (n : Nat) : s.consumeDraw.effAddr n = s.effAddr n := by
  unfold State.consumeDraw; split <;> rfl
@[simp] theorem State.consumeDraw_getKey (k' : KeyIndex) : s.consumeDraw.getKey k' = s.getKey k' := by
  unfold State.consumeDraw; split <;> rfl

/-! ### `sample` -/

@[simp] theorem State.sample_mem (r : Option Byte) : (s.sample r).mem = s.mem := rfl
@[simp] theorem State.sample_v (r : Option Byte) : (s.sample r).v = s.v := rfl
@[simp] theorem State.sample_i (r : Option Byte) : (s.sample r).i = s.i := rfl
@[simp] theorem State.sample_pc (r : Option Byte) : (s.sample r).pc = s.pc := rfl
@[simp] theorem State.sample_stack (r : Option Byte) : (s.sample r).stack = s.stack := rfl
@[simp] theorem State.sample_sp (r : Option Byte) : (s.sample r).sp = s.sp := rfl
@[simp] theorem State.sample_dt (r : Option Byte) : (s.sample r).dt = s.dt := rfl
@[simp] theorem State.sample_st (r : Option Byte) : (s.sample r).st = s.st := rfl
@[simp] theorem State.sample_fb (r : Option Byte) : (s.sample r).fb = s.fb := rfl
@[simp] theorem State.sample_redraw (r : Option Byte) : (s.sample r).redraw = s.redraw := rfl
@[simp] theorem State.sample_key (r : Option Byte) : (s.sample r).key = s.key := rfl
@[simp] theorem State.sample_kstate (r : Option Byte) : (s.sample r).kstate = s.kstate := rfl
@[simp] theorem State.sample_ktarget (r : Option Byte) : (s.sample r).ktarget = s.ktarget := rfl
@[simp] theorem State.sample_fault (r : Option Byte) : (s.sample r).fault = s.fault := rfl
@[simp] theorem State.sample_faultWord (r : Option Byte) : (s.sample r).faultWord = s.faultWord := rfl
@[simp] theorem State.sample_draws (r : Option Byte) : (s.sample r).draws = s.draws := rfl
@[simp] theorem State.sample_pending (r : Option Byte) : (s.sample r).pending = s.pending := rfl
@[simp] theorem State.sample_font (r : Option Byte) : (s.sample r).font = s.font := rfl
@[simp] theorem State.sample_rnd (r : Option Byte) : (s.sample r).rnd = r := rfl
@[simp] theorem State.sample_getV (r : Option Byte) (r' : Reg) : (s.sample r).getV r' = s.getV r' := rfl
@[simp] theorem State.sample_memRead (r : Option Byte) (a' : Word) : (s.sample r).memRead a' = s.memRead a' := rfl
@[simp] theorem State.sample_effAddr (r : Option Byte) (n : Nat) : (s.sample r).effAddr n = s.effAddr n := rfl
@[simp] theorem State.sample_getKey (r : Option Byte) (k' : KeyIndex) : (s.sample r).getKey k' = s.getKey k' := rfl
@[simp] theorem State.sample_fetchWord (r : Option Byte) : (s.sample r).fetchWord = s.fetchWord := rfl

/-! ### `dropSample` -/

@[simp] theorem State.dropSample_mem : s.dropSample.mem = s.mem := rfl
@[simp] theorem State.dropSample_v : s.dropSample.v = s.v := rfl
@[simp] theorem State.dropSample_i : s.dropSample.i = s.i := rfl
@[simp] theorem State.dropSample_pc : s.dropSample.pc = s.pc := rfl
@[simp] theorem State.dropSample_stack : s.dropSample.stack = s.stack := rfl
@[simp] theorem State.dropSample_sp : s.dropSample.sp = s.sp := rfl
@[simp] theorem State.dropSample_dt : s.dropSample.dt = s.dt := rfl
@[simp] theorem State.dropSample_st : s.dropSample.st = s.st := rfl
@[simp] theorem State.dropSample_fb : s.dropSample.fb = s.fb := rfl
@[simp] theorem State.dropSample_redraw : s.dropSample.redraw = s.redraw := rfl
@[simp] theorem State.dropSample_key : s.dropSample.key = s.key := rfl
@[simp] theorem State.dropSample_kstate : s.dropSample.kstate = s.kstate := rfl
@[simp] theorem State.dropSample_ktarget : s.dropSample.ktarget = s.ktarget := rfl
@[simp] theorem State.dropSample_fault : s.dropSample.fault = s.fault := rfl
@[simp] theorem State.dropSample_faultWord : s.dropSample.faultWord = s.faultWord := rfl
@[simp] theorem State.dropSample_draws : s.dropSample.draws = s.draws := rfl
@[simp] theorem State.dropSample_pending : s.dropSample.pending = s.pending := rfl
@[simp] theorem State.dropSample_font : s.dropSample.font = s.font := rfl
@[simp] theorem State.dropSample_rnd : s.dropSample.rnd = none := rfl
@[simp] theorem State.dropSample_getV (r' : Reg) : s.dropSample.getV r' = s.getV r' := rfl
@[simp] theorem State.dropSample_memRead (a' : Word) : s.dropSample.memRead a' = s.memRead a' := rfl
@[simp] theorem State.dropSample_effAddr (n : Nat) : s.dropSample.effAddr n = s.effAddr n := rfl
@[simp] theorem State.dropSample_getKey (k' : KeyIndex) : s.dropSample.getKey k' = s.getKey k' := rfl
@[simp] theorem State.dropSample_fetchWord : s.dropSample.fetchWord = s.fetchWord := rfl

/-! ### The reads after an update written out -/

@[simp] theorem State.with_fb_getV (f : Framebuffer) (b : Bool) (r' : Reg) : State.getV { s with fb := f, redraw := b } r' = s.getV r' := rfl
@[simp] theorem State.with_fb_memRead (f : Framebuffer) (b : Bool) (a' : Word) : State.memRead { s with fb := f, redraw := b } a' = s.memRead a' := rfl
@[simp] theorem State.with_fb_effAddr (f : Framebuffer) (b : Bool) (n : Nat) : State.effAddr { s with fb := f, redraw := b } n = s.effAddr n := rfl
@[simp] theorem State.with_fb_getKey (f : Framebuffer) (b : Bool) (k' : KeyIndex) : State.getKey { s with fb := f, redraw := b } k' = s.getKey k' := rfl
@[simp] theorem State.with_redraw_getV (b : Bool) (r' : Reg) : State.getV { s with redraw := b } r' = s.getV r' := rfl
@[simp] theorem State.with_redraw_memRead (b : Bool) (a' : Word) : State.memRead { s with redraw := b } a' = s.memRead a' := rfl
@[simp] theorem State.with_redraw_effAddr (b : Bool) (n : Nat) : State.effAddr { s with redraw := b } n = s.effAddr n := rfl
@[simp] theorem State.with_redraw_getKey (b : Bool) (k' : KeyIndex) : State.getKey { s with redraw := b } k' = s.getKey k' := rfl
@[simp] theorem State.with_i_getV (w : Word) (r' : Reg) : State.getV { s with i := w } r' = s.getV r' := rfl
@[simp] theorem State.with_i_memRead (w : Word) (a' : Word) : State.memRead { s with i := w } a' = s.memRead a' := rfl
@[simp] theorem State.with_i_getKey (w : Word) (k' : KeyIndex) : State.getKey { s with i := w } k' = s.getKey k' := rfl
@[simp] theorem State.with_dt_getV (b : Byte) (r' : Reg) : State.getV { s with dt := b } r' = s.getV r' := rfl
@[simp] theorem State.with_dt_memRead (b : Byte) (a' : Word) : State.memRead { s with dt := b } a' = s.memRead a' := rfl
@[simp] theorem State.with_dt_effAddr (b : Byte) (n : Nat) : State.effAddr { s with dt := b } n = s.effAddr n := rfl
@[simp] theorem State.with_dt_getKey (b : Byte) (k' : KeyIndex) : State.getKey { s with dt := b } k' = s.getKey k' := rfl
@[simp] theorem State.with_st_getV (b : Byte) (r' : Reg) : State.getV { s with st := b } r' = s.getV r' := rfl
@[simp] theorem State.with_st_memRead (b : Byte) (a' : Word) : State.memRead { s with st := b } a' = s.memRead a' := rfl
@[simp] theorem State.with_st_effAddr (b : Byte) (n : Nat) : State.effAddr { s with st := b } n = s.effAddr n := rfl
@[simp] theorem State.with_st_getKey (b : Byte) (k' : KeyIndex) : State.getKey { s with st := b } k' = s.getKey k' := rfl
@[simp] theorem State.with_timers_getV (b c : Byte) (r' : Reg) : State.getV { s with dt := b, st := c } r' = s.getV r' := rfl
@[simp] theorem State.with_timers_memRead (b c : Byte) (a' : Word) : State.memRead { s with dt := b, st := c } a' = s.memRead a' := rfl
@[simp] theorem State.with_timers_effAddr (b c : Byte) (n : Nat) : State.effAddr { s with dt := b, st := c } n = s.effAddr n := rfl
@[simp] theorem State.with_timers_getKey (b c : Byte) (k' : KeyIndex) : State.getKey { s with dt := b, st := c } k' = s.getKey k' := rfl
@[simp] theorem State.with_kstate_getV (k : KState) (r' : Reg) : State.getV { s with kstate := k } r' = s.getV r' := rfl
@[simp] theorem State.with_kstate_memRead (k : KState) (a' : Word) : State.memRead { s with kstate := k } a' = s.memRead a' := rfl
@[simp] theorem State.with_kstate_effAddr (k : KState) (n : Nat) : State.effAddr { s with kstate := k } n = s.effAddr n := rfl
@[simp] theorem State.with_kstate_getKey (k : KState) (k' : KeyIndex) : State.getKey { s with kstate := k } k' = s.getKey k' := rfl
@[simp] theorem State.with_wait_getV (k : KState) (x : Reg) (r' : Reg) : State.getV { s with kstate := k, ktarget := x } r' = s.getV r' := rfl
@[simp] theorem State.with_wait_memRead (k : KState) (x : Reg) (a' : Word) : State.memRead { s with kstate := k, ktarget := x } a' = s.memRead a' := rfl
@[simp] theorem State.with_wait_effAddr (k : KState) (x : Reg) (n : Nat) : State.effAddr { s with kstate := k, ktarget := x } n = s.effAddr n := rfl
@[simp] theorem State.with_wait_getKey (k : KState) (x : Reg) (k' : KeyIndex) : State.getKey { s with kstate := k, ktarget := x } k' = s.getKey k' := rfl
@[simp] theorem State.with_rnd_getV (r : Option Byte) (r' : Reg) : State.getV { s with rnd := r } r' = s.getV r' := rfl
@[simp] theorem State.with_rnd_memRead (r : Option Byte) (a' : Word) : State.memRead { s with rnd := r } a' = s.memRead a' := rfl
@[simp] theorem State.with_rnd_effAddr (r : Option Byte) (n : Nat) : State.effAddr { s with rnd := r } n = s.effAddr n := rfl
@[simp] theorem State.with_rnd_getKey (r : Option Byte) (k' : KeyIndex) : State.getKey { s with rnd := r } k' = s.getKey k' := rfl
@[simp] theorem State.with_inputs_getV (r : Option Byte) (d : Nat) (r' : Reg) : State.getV { s with rnd := r, draws := d } r' = s.getV r' := rfl
@[simp] theorem State.with_inputs_memRead (r : Option Byte) (d : Nat) (a' : Word) : State.memRead { s with rnd := r, draws := d } a' = s.memRead a' := rfl
@[simp] theorem State.with_inputs_effAddr (r : Option Byte) (d : Nat) (n : Nat) : State.effAddr { s with rnd := r, draws := d } n = s.effAddr n := rfl
@[simp] theorem State.with_inputs_getKey (r : Option Byte) (d : Nat) (k' : KeyIndex) : State.getKey { s with rnd := r, draws := d } k' = s.getKey k' := rfl
@[simp] theorem State.with_pending_getV (p : List Command) (r' : Reg) : State.getV { s with pending := p } r' = s.getV r' := rfl
@[simp] theorem State.with_pending_memRead (p : List Command) (a' : Word) : State.memRead { s with pending := p } a' = s.memRead a' := rfl
@[simp] theorem State.with_pending_effAddr (p : List Command) (n : Nat) : State.effAddr { s with pending := p } n = s.effAddr n := rfl
@[simp] theorem State.with_pending_getKey (p : List Command) (k' : KeyIndex) : State.getKey { s with pending := p } k' = s.getKey k' := rfl
@[simp] theorem State.with_pc_getV (a : Word) (r' : Reg) : State.getV { s with pc := a } r' = s.getV r' := rfl
@[simp] theorem State.with_pc_memRead (a : Word) (a' : Word) : State.memRead { s with pc := a } a' = s.memRead a' := rfl
@[simp] theorem State.with_pc_effAddr (a : Word) (n : Nat) : State.effAddr { s with pc := a } n = s.effAddr n := rfl
@[simp] theorem State.with_pc_getKey (a : Word) (k' : KeyIndex) : State.getKey { s with pc := a } k' = s.getKey k' := rfl

/-! ### Registers and keys -/

/-- Read after write of a register. -/
theorem State.getV_setV (r r' : Reg) (b : Byte) :
    (s.setV r b).getV r' = if r' = r then b else s.getV r' := by
  unfold State.getV State.setV
  by_cases h : r' = r
  · subst h; simp
  · have : r.val ≠ r'.val := fun e => h (Fin.eq_of_val_eq e.symm)
    simp [h, Vector.getElem_set_ne _ _ this]

@[simp] theorem State.getV_setV_same (r : Reg) (b : Byte) : (s.setV r b).getV r = b := by
  simp [State.getV_setV]

theorem State.getV_setV_ne {r r' : Reg} (b : Byte) (h : r' ≠ r) : (s.setV r b).getV r' = s.getV r' := by
  simp [State.getV_setV, h]

/-- Read after write of a key flag. -/
theorem State.getKey_setKey (k k' : KeyIndex) (p : Bool) :
    (s.setKey k p).getKey k' = if k' = k then p else s.getKey k' := by
  unfold State.getKey State.setKey
  by_cases h : k' = k
  · subst h; simp
  · have : k.val ≠ k'.val := fun e => h (Fin.eq_of_val_eq e.symm)
    simp [h, Vector.getElem_set_ne _ _ this]

/-- Two states with the same registers one by one have the same register file. -/
theorem State.v_ext {s t : State} (h : ∀ r, t.getV r = s.getV r) : t.v = s.v :=
  Vector.ext fun j hj => h ⟨j, hj⟩

end Sys2Proof.Machine
end

