-- ==== Sys2Proof/Laws/Memory.lean ====
section
/-! SUPPORT. Memory: read after write, and every operation keeps the canonical form. -/

namespace Sys2Proof.Machine

theorem reduceAddr_lt (a : Word) : reduceAddr a < Config.memSize := Nat.mod_lt _ (by decide)

variable {font : Font}

/-! ### Reading -/

theorem Memory.read_erase_same (m : Memory) (a : Nat) : (m.erase a).read font a = unlisted font a := by
  induction m with
  | nil => rfl
  | cons c m ih =>
    by_cases h : c.1 = a
    · simpa [Memory.erase, h] using ih
    · have : Memory.erase (c :: m) a = c :: Memory.erase m a := by simp [Memory.erase, h]
      simpa [this, Memory.read, h] using ih

theorem Memory.read_erase_ne (m : Memory) {a a' : Nat} (h : a' ≠ a) : (m.erase a).read font a' = m.read font a' := by
  induction m with
  | nil => rfl
  | cons c m ih =>
    by_cases hc : c.1 = a
    · have : Memory.erase (c :: m) a = Memory.erase m a := by simp [Memory.erase, hc]
      have hne : c.1 ≠ a' := fun e => h (e.symm.trans hc)
      simpa [this, Memory.read, hne] using ih
    · have : Memory.erase (c :: m) a = c :: Memory.erase m a := by simp [Memory.erase, hc]
      simp only [this, Memory.read, ih]

theorem Memory.read_insert_ne (c : Host.Cell) (m : Memory) {a : Nat} (h : c.1 ≠ a) :
    (m.insert c).read font a = m.read font a := by
  induction m with
  | nil => simp [Memory.insert, Memory.read, h]
  | cons d m ih =>
    unfold Memory.insert
    split
    · simp [Memory.read, h]
    · simp only [Memory.read, ih]

theorem Memory.read_insert_same (c : Host.Cell) (m : Memory) (h : ∀ d ∈ m, d.1 ≠ c.1) :
    (m.insert c).read font c.1 = c.2 := by
  induction m with
  | nil => simp [Memory.insert, Memory.read]
  | cons d m ih =>
    have hd := h d (by simp)
    unfold Memory.insert
    split
    · simp [Memory.read]
    · simp only [Memory.read, if_neg hd]
      exact ih fun e he => h e (by simp [he])

theorem Memory.mem_erase {m : Memory} {a : Nat} {c : Host.Cell} : c ∈ m.erase a ↔ c ∈ m ∧ c.1 ≠ a := by
  simp [Memory.erase]

/-- Read after write at the same address. -/
@[simp] theorem Memory.read_write_same (m : Memory) (a : Nat) (b : Byte) : (m.write font a b).read font a = b := by
  unfold Memory.write
  split
  · next h => rw [h, Memory.read_erase_same]
  · exact Memory.read_insert_same (a, b) _ fun d hd => (Memory.mem_erase.mp hd).2

/-- A write leaves every other address alone. -/
theorem Memory.read_write_ne (m : Memory) {a a' : Nat} (b : Byte) (h : a' ≠ a) :
    (m.write font a b).read font a' = m.read font a' := by
  unfold Memory.write
  split
  · exact Memory.read_erase_ne m h
  · rw [Memory.read_insert_ne _ _ (fun e => h e.symm), Memory.read_erase_ne m h]

/-- Read after a block of writes. -/
theorem Memory.read_writeAll (m : Memory) (a a' : Nat) (bs : List Byte) :
    (m.writeAll font a bs).read font a' = if h : a ≤ a' ∧ a' - a < bs.length then bs[a' - a] else m.read font a' := by
  induction bs generalizing m a with
  | nil => simp [Memory.writeAll]
  | cons b bs ih =>
    rw [Memory.writeAll, ih]
    by_cases h1 : a + 1 ≤ a'
    · have e : a' - a = (a' - (a + 1)) + 1 := by omega
      have hle : a ≤ a' := by omega
      by_cases h2 : a' - (a + 1) < bs.length
      · rw [dif_pos ⟨h1, h2⟩, dif_pos ⟨hle, by simp; omega⟩]
        simp [e]
      · rw [dif_neg (fun h => h2 h.2), dif_neg (fun h => h2 (by have := h.2; simp at this; omega)),
          Memory.read_write_ne _ _ (by omega)]
    · rw [dif_neg (fun h => h1 h.1)]
      by_cases h2 : a' = a
      · subst h2; simp
      · rw [Memory.read_write_ne _ _ h2, dif_neg (fun h => by omega)]

/-! ### The canonical form -/

theorem Memory.erase_wf {m : Memory} (h : m.wf font) (a : Nat) : Memory.wf font (m.erase a) :=
  ⟨h.1.filter _, fun c hc => h.2 c (Memory.mem_erase.mp hc).1⟩

theorem Memory.mem_insert {c d : Host.Cell} {m : Memory} : d ∈ m.insert c ↔ d = c ∨ d ∈ m := by
  induction m with
  | nil => simp [Memory.insert]
  | cons e m ih =>
    unfold Memory.insert
    split
    · simp
    · simp only [List.mem_cons, ih]; tauto

theorem Memory.insert_pairwise {c : Host.Cell} {m : Memory} (h : m.Pairwise (fun c d => c.1 < d.1))
    (hne : ∀ d ∈ m, d.1 ≠ c.1) : (m.insert c).Pairwise (fun c d => c.1 < d.1) := by
  induction m with
  | nil => simp [Memory.insert]
  | cons e m ih =>
    obtain ⟨he, hm⟩ := List.pairwise_cons.mp h
    unfold Memory.insert
    split
    · next hlt =>
      refine List.pairwise_cons.mpr ⟨fun d hd => ?_, h⟩
      rcases List.mem_cons.mp hd with rfl | hd
      · exact hlt
      · exact lt_trans hlt (he d hd)
    · next hge =>
      refine List.pairwise_cons.mpr ⟨fun d hd => ?_, ih hm fun d hd => hne d (by simp [hd])⟩
      rcases Memory.mem_insert.mp hd with rfl | hd
      · have := hne e (by simp); omega
      · exact he d hd

/-- A write inside the 4096 bytes keeps the canonical form. -/
theorem Memory.write_wf {m : Memory} (h : m.wf font) {a : Nat} (ha : a < Config.memSize) (b : Byte) :
    Memory.wf font (m.write font a b) := by
  unfold Memory.write
  split
  · exact Memory.erase_wf h a
  · next hb =>
    have he := Memory.erase_wf h a
    refine ⟨Memory.insert_pairwise he.1 fun d hd => (Memory.mem_erase.mp hd).2, fun c hc => ?_⟩
    rcases Memory.mem_insert.mp hc with rfl | hc
    · exact ⟨ha, hb⟩
    · exact he.2 c hc

/-- A block of writes inside the 4096 bytes keeps the canonical form. -/
theorem Memory.writeAll_wf {m : Memory} (h : m.wf font) {a : Nat} {bs : List Byte} (ha : a + bs.length ≤ Config.memSize) :
    Memory.wf font (m.writeAll font a bs) := by
  induction bs generalizing m a with
  | nil => exact h
  | cons b bs ih =>
    simp only [List.length_cons] at ha
    exact ih (Memory.write_wf h (by omega) b) (by omega)

theorem reset_mem_wf : State.reset.mem.wf State.reset.font := ⟨List.Pairwise.nil, by simp [State.reset]⟩

/-! ### `memRead` and `memWrite` -/

/-- Read after `MemWrite` (R62, R63). -/
theorem State.memRead_memWrite (s : State) (a a' : Word) (b : Byte) :
    (s.memWrite a b).memRead a' = if reduceAddr a' = reduceAddr a then b else s.memRead a' := by
  unfold State.memRead State.memWrite
  split
  · next h => rw [h]; exact Memory.read_write_same _ _ _
  · next h => exact Memory.read_write_ne _ _ h

@[simp] theorem State.memRead_memWrite_same (s : State) (a : Word) (b : Byte) : (s.memWrite a b).memRead a = b := by
  simp [State.memRead_memWrite]

theorem State.memRead_memWrite_ne (s : State) {a a' : Word} (b : Byte) (h : reduceAddr a' ≠ reduceAddr a) :
    (s.memWrite a b).memRead a' = s.memRead a' := by
  simp [State.memRead_memWrite, h]

theorem State.memWrite_mem_wf {s : State} (h : s.mem.wf s.font) (a : Word) (b : Byte) : (s.memWrite a b).mem.wf s.font :=
  Memory.write_wf h (reduceAddr_lt a) b

end Sys2Proof.Machine
end

