-- ==== Sys2Proof/Laws/Ops.lean ====
section
/-! SUPPORT. What each shared operation can do, said once: the stack, the flags, the random input, the addresses, the
block transfers and the display. -/

namespace Sys2Proof.Machine

variable (s : State)

/-! ### The stack -/

/-- A push that succeeds found room, stored the address at `sp` and moved `sp` up; nothing else changed. -/
theorem State.push_eq_some {a : Word} {t : State} (h : s.push a = some t) :
    ∃ hlt : s.sp.val < 16,
      t = { s with stack := s.stack.set s.sp.val a, sp := ⟨s.sp.val + 1, by omega⟩ } := by
  unfold State.push at h
  split at h
  · next hlt => exact ⟨hlt, (Option.some.inj h).symm⟩
  · cases h

theorem State.push_of_lt (a : Word) (h : s.sp.val < 16) :
    s.push a = some { s with stack := s.stack.set s.sp.val a, sp := ⟨s.sp.val + 1, by omega⟩ } := dif_pos h

theorem State.push_eq_none {a : Word} (h : s.push a = none) : s.sp = 16 := by
  unfold State.push at h
  split at h
  · cases h
  · have := s.sp.isLt
    exact Fin.eq_of_val_eq (by show s.sp.val = 16; omega)

theorem State.push_full (a : Word) (h : s.sp = 16) : s.push a = none := by
  simp [State.push, h]

/-- A pop that succeeds found an entry, answers the newest and moves `sp` down; nothing else changed. -/
theorem State.pop_eq_some {a : Word} {t : State} (h : s.pop = some (a, t)) :
    ∃ hlt : 0 < s.sp.val,
      a = s.stack[s.sp.val - 1] ∧ t = { s with sp := ⟨s.sp.val - 1, by omega⟩ } := by
  unfold State.pop at h
  split at h
  · next hlt => cases h; exact ⟨hlt, rfl, rfl⟩
  · cases h

theorem State.pop_of_pos (h : 0 < s.sp.val) :
    s.pop = some (s.stack[s.sp.val - 1], { s with sp := ⟨s.sp.val - 1, by omega⟩ }) := dif_pos h

theorem State.pop_eq_none (h : s.pop = none) : s.sp = 0 := by
  unfold State.pop at h
  split at h
  · cases h
  · exact Fin.eq_of_val_eq (by show s.sp.val = 0; omega)

theorem State.pop_empty (h : s.sp = 0) : s.pop = none := by
  simp [State.pop, h]

/-! ### Flag and result -/

/-- VF holds the flag and V[x] the result; at x = 0xF the result (R180). -/
theorem State.writeFlagThenResult_getV (f : Bool) (x r : Reg) (b : Byte) :
    (s.writeFlagThenResult f x b).getV r = if r = x then b else if r = VF then flagByte f else s.getV r := by
  simp only [State.writeFlagThenResult, State.getV_setV]

/-- Only the register file is written. -/
theorem State.writeFlagThenResult_eq (f : Bool) (x : Reg) (b : Byte) :
    s.writeFlagThenResult f x b = { s with v := (s.writeFlagThenResult f x b).v } := rfl

/-! ### The random input -/

theorem State.drawn_given {b : Byte} (h : s.rnd = some b) : s.drawn = b := by simp [State.drawn, h]

theorem State.drawn_free (h : s.rnd = none) : s.drawn = Config.randomByte s.draws := by simp [State.drawn, h]

/-! ### Addresses -/

theorem State.effAddr_toNat (k : Nat) : (s.effAddr k).toNat = (s.i.toNat + k) % 65536 := by
  simp [State.effAddr, BitVec.toNat_add]

/-- The effective address as memory sees it: `(I + k) mod 4096` (R226). -/
theorem State.reduceAddr_effAddr (k : Nat) : reduceAddr (s.effAddr k) = (s.i.toNat + k) % 4096 := by
  simp only [reduceAddr, State.effAddr_toNat, Config.memSize]
  omega

/-- Two offsets below 4096 reach the same byte only if they are the same. -/
theorem State.effAddr_inj {j k : Nat} (hj : j < 4096) (hk : k < 4096)
    (h : reduceAddr (s.effAddr j) = reduceAddr (s.effAddr k)) : j = k := by
  rw [State.reduceAddr_effAddr, State.reduceAddr_effAddr] at h
  omega

/-! ### Block transfers -/

theorem mem_regsUpTo {k x : Reg} : k ∈ regsUpTo x ↔ k ≤ x := by
  have : ∀ k : Reg, k ∈ allRegs := by decide
  simp [regsUpTo, this k]

theorem regsUpTo_nodup (x : Reg) : (regsUpTo x).Nodup := List.Nodup.filter _ (by decide)

/-- A block store writes memory only. -/
theorem State.storeList_eq (ks : List Reg) : s.storeList ks = { s with mem := (s.storeList ks).mem } := by
  induction ks generalizing s with
  | nil => rfl
  | cons k ks ih => rw [State.storeList, ih]; rfl

@[simp] theorem State.storeList_getV (ks : List Reg) (r : Reg) : (s.storeList ks).getV r = s.getV r := by
  rw [State.storeList_eq]; rfl

/-- A block store leaves every other address alone. -/
theorem State.storeList_memRead_other (ks : List Reg) (a : Word)
    (h : ∀ k ∈ ks, reduceAddr a ≠ reduceAddr (s.effAddr k.val)) : (s.storeList ks).memRead a = s.memRead a := by
  induction ks generalizing s with
  | nil => rfl
  | cons k ks ih =>
    rw [State.storeList, ih, State.memRead_memWrite_ne s _ (h k (by simp))]
    intro j hj
    simpa using h j (by simp [hj])

/-- A block store puts V[k] at I + k. -/
theorem State.storeList_memRead_stored {ks : List Reg} (hn : ks.Nodup) {k : Reg} (hk : k ∈ ks) :
    (s.storeList ks).memRead (s.effAddr k.val) = s.getV k := by
  induction ks generalizing s with
  | nil => cases hk
  | cons j ks ih =>
    obtain ⟨hj, hn⟩ := List.nodup_cons.mp hn
    rw [State.storeList]
    rcases List.mem_cons.mp hk with rfl | hk
    · rw [State.storeList_memRead_other, State.memRead_memWrite_same]
      intro l hl he
      have := State.effAddr_inj s (by have := k.isLt; omega) (by have := l.isLt; omega) he
      exact hj (Fin.eq_of_val_eq this ▸ hl)
    · simpa using ih (s.memWrite (s.effAddr j.val) (s.getV j)) hn hk

theorem State.storeList_mem_wf {ks : List Reg} (h : s.mem.wf s.font) : (s.storeList ks).mem.wf s.font := by
  induction ks generalizing s with
  | nil => exact h
  | cons k ks ih => exact ih _ (State.memWrite_mem_wf h _ _)

/-- A block load writes the register file only. -/
theorem State.loadList_eq (ks : List Reg) : s.loadList ks = { s with v := (s.loadList ks).v } := by
  induction ks generalizing s with
  | nil => rfl
  | cons k ks ih => rw [State.loadList, ih]; rfl

/-- A block load puts the byte at I + k into V[k] and leaves the other registers alone. -/
theorem State.loadList_getV (ks : List Reg) (r : Reg) :
    (s.loadList ks).getV r = if r ∈ ks then s.memRead (s.effAddr r.val) else s.getV r := by
  induction ks generalizing s with
  | nil => rfl
  | cons k ks ih =>
    rw [State.loadList, ih]
    by_cases hr : r ∈ ks
    · simp [hr]
    · by_cases hk : r = k
      · subst hk; simp
      · simp [hr, hk, State.getV_setV]

/-! ### The display -/

theorem pixelOn_togglePixel (fb : Framebuffer) (px px' : Fin 64) (py py' : Fin 32) :
    pixelOn (togglePixel fb px py) px' py' = (pixelOn fb px' py' ^^ decide (px' = px ∧ py' = py)) := by
  unfold pixelOn togglePixel
  by_cases hy : py' = py
  · subst hy
    rw [Vector.getElem_set_self, BitVec.getLsbD_xor, BitVec.getLsbD_twoPow]
    have := px.isLt
    simp [Fin.ext_iff, eq_comm]
  · have : py.val ≠ py'.val := fun e => hy (Fin.eq_of_val_eq e.symm)
    simp [hy, Vector.getElem_set_ne _ _ this]

@[simp] theorem pixelOn_blank (px : Fin 64) (py : Fin 32) : pixelOn blankDisplay px py = false := by
  simp [pixelOn, blankDisplay]

/-- The flat index and the coordinates name the same pixel (R29). -/
theorem fbBit_flat (fb : Framebuffer) (px : Fin 64) (py : Fin 32) :
    fbBit fb ⟨py.val * 64 + px.val, by omega⟩ = pixelOn fb px py := by
  unfold fbBit
  congr 1
  · exact Fin.eq_of_val_eq (by show (py.val * 64 + px.val) % 64 = px.val; omega)
  · exact Fin.eq_of_val_eq (by show (py.val * 64 + px.val) / 64 = py.val; omega)

/-- One column of a sprite toggles exactly the pixel its set bit falls on. -/
theorem pixelOn_drawColumn (ox oy : Nat) (b : Byte) (r c : Nat) (d : Canvas) (px : Fin 64) (py : Fin 32) :
    pixelOn (drawColumn ox oy b r c d).1 px py =
      (pixelOn d.1 px py ^^ (spriteBit b c && decide (px = wrapX (ox + c) ∧ py = wrapY (oy + r)))) := by
  unfold drawColumn
  split
  · next h => simp [pixelOn_togglePixel, h]
  · next h => simp [h]

/-- One column of a sprite records a collision exactly when its set bit falls on a lit pixel. -/
theorem drawColumn_hit (ox oy : Nat) (b : Byte) (r c : Nat) (d : Canvas) :
    (drawColumn ox oy b r c d).2 = (d.2 || (spriteBit b c && pixelOn d.1 (wrapX (ox + c)) (wrapY (oy + r)))) := by
  unfold drawColumn
  split
  · next h => simp [h]
  · next h => simp [h]

end Sys2Proof.Machine
end

