-- ==== Sys2Proof/Laws/Exec.lean ====
section
/-! SUPPORT. The effect of each instruction as one equation, the cases of the instruction cycle and of the commands. A
proof rewrites with these and never unfolds `exec`, `stepCore` or `step`. -/

namespace Sys2Proof.Machine

variable (s : State) (x y : Reg) (nn : Byte) (nnn : Addr)

/-! ### One equation per instruction -/

theorem exec_cls : exec .cls s = .next { s with fb := blankDisplay, redraw := true }.advance := rfl

theorem exec_drw (n : Rows) : exec (.drw x y n) s =
    .next ({ s with fb := (s.drawSprite (s.originX x) (s.originY y) n.val).1, redraw := true }.setV VF
      (flagByte (s.drawSprite (s.originX x) (s.originY y) n.val).2)).advance := rfl

theorem exec_ret_ok (h : 0 < s.sp.val) : exec .ret s =
    .next (State.jump { s with sp := ⟨s.sp.val - 1, by omega⟩ } (s.stack[s.sp.val - 1] + 2)) := by
  show execRet s = _
  rw [execRet, State.pop_of_pos s h]

theorem exec_ret_empty (h : s.sp = 0) : exec .ret s = .next (s.raise .stackUnderflow 0x00EE) := by
  show execRet s = _
  rw [execRet, State.pop_empty s h]; rfl

theorem exec_jp : exec (.jp nnn) s = .next (s.jump (zextAddr nnn)) := rfl

theorem exec_call_ok (h : s.sp.val < 16) : exec (.call nnn) s =
    .next (State.jump { s with stack := s.stack.set s.sp.val s.pc, sp := ⟨s.sp.val + 1, by omega⟩ } (zextAddr nnn)) := by
  show execCall nnn s = _
  rw [execCall, State.push_of_lt s s.pc h]

theorem exec_call_full (h : s.sp = 16) :
    exec (.call nnn) s = .next (s.raise .stackOverflow (encode (.call nnn))) := by
  show execCall nnn s = _
  rw [execCall, State.push_full s s.pc h]

theorem exec_seByte : exec (.seByte x nn) s = .next (s.skipIf (s.getV x == nn)) := rfl
theorem exec_sneByte : exec (.sneByte x nn) s = .next (s.skipIf (s.getV x != nn)) := rfl
theorem exec_seReg (d : BitVec 4) : exec (.seReg x y d) s = .next (s.skipIf (s.getV x == s.getV y)) := rfl
theorem exec_sneReg (d : BitVec 4) : exec (.sneReg x y d) s = .next (s.skipIf (s.getV x != s.getV y)) := rfl
theorem exec_jpV0 : exec (.jpV0 nnn) s = .next (s.jump (zextAddr nnn + zextByte (s.getV 0))) := rfl

theorem exec_ldByte : exec (.ldByte x nn) s = .next (s.setV x nn).advance := rfl
theorem exec_addByte : exec (.addByte x nn) s = .next (s.setV x (s.getV x + nn)).advance := rfl
theorem exec_ldReg : exec (.ldReg x y) s = .next (s.setV x (s.getV y)).advance := rfl
theorem exec_orReg : exec (.orReg x y) s = .next (s.setV x (s.getV x ||| s.getV y)).advance := rfl
theorem exec_andReg : exec (.andReg x y) s = .next (s.setV x (s.getV x &&& s.getV y)).advance := rfl
theorem exec_xorReg : exec (.xorReg x y) s = .next (s.setV x (s.getV x ^^^ s.getV y)).advance := rfl
theorem exec_addReg : exec (.addReg x y) s =
    .next (s.writeFlagThenResult (carry (s.getV x) (s.getV y)) x (s.getV x + s.getV y)).advance := rfl
theorem exec_subReg : exec (.subReg x y) s =
    .next (s.writeFlagThenResult (notBorrow (s.getV x) (s.getV y)) x (s.getV x - s.getV y)).advance := rfl
theorem exec_shr : exec (.shr x y) s =
    .next (s.writeFlagThenResult (shiftedOutRight (s.getV x)) x (s.getV x >>> 1)).advance := rfl
theorem exec_subnReg : exec (.subnReg x y) s =
    .next (s.writeFlagThenResult (notBorrow (s.getV y) (s.getV x)) x (s.getV y - s.getV x)).advance := rfl
theorem exec_shl : exec (.shl x y) s =
    .next (s.writeFlagThenResult (shiftedOutLeft (s.getV x)) x (s.getV x <<< 1)).advance := rfl
theorem exec_rnd : exec (.rnd x nn) s = .next (s.consumeDraw.setV x (s.drawn &&& nn)).advance := rfl

theorem exec_ldI : exec (.ldI nnn) s = .next { s with i := zextAddr nnn }.advance := rfl
theorem exec_addIVx : exec (.addIVx x) s = .next { s with i := s.i + zextByte (s.getV x) }.advance := rfl
theorem exec_ldFVx : exec (.ldFVx x) s = .next { s with i := glyphAddr (s.getV x) }.advance := rfl
theorem exec_ldBVx : exec (.ldBVx x) s =
    .next (((s.memWrite (s.effAddr 0) (hundreds (s.getV x))).memWrite (s.effAddr 1)
      (tens (s.getV x))).memWrite (s.effAddr 2) (units (s.getV x))).advance := rfl
theorem exec_storeRegs : exec (.storeRegs x) s = .next (s.storeList (regsUpTo x)).advance := rfl
theorem exec_loadRegs : exec (.loadRegs x) s = .next (s.loadList (regsUpTo x)).advance := rfl

theorem exec_skp : exec (.skp x) s = .next (s.skipIf (s.getKey (selectedKey (s.getV x)))) := rfl
theorem exec_sknp : exec (.sknp x) s = .next (s.skipIf (!s.getKey (selectedKey (s.getV x)))) := rfl
theorem exec_ldVxDT : exec (.ldVxDT x) s = .next (s.setV x s.dt).advance := rfl
theorem exec_ldVxK : exec (.ldVxK x) s = .next { s with kstate := .awaitingKey, ktarget := x } := rfl
theorem exec_ldDTVx : exec (.ldDTVx x) s = .next { s with dt := s.getV x }.advance := rfl
theorem exec_ldSTVx : exec (.ldSTVx x) s = .next { s with st := s.getV x }.advance := rfl

/-! ### The operand values as numbers -/

theorem zextAddr_toNat : (zextAddr nnn).toNat = nnn.toNat := by
  have := nnn.isLt
  simp [zextAddr]; omega

theorem zextByte_toNat (b : Byte) : (zextByte b).toNat = b.toNat := by
  have := b.isLt
  simp [zextByte]; omega

theorem selectedKey_val (b : Byte) : (selectedKey b).val = b.toNat % 16 := by
  simp [selectedKey]

theorem glyphAddr_toNat (b : Byte) : (glyphAddr b).toNat = b.toNat * 5 := by
  have := b.isLt
  have h5 : (5 : Word).toNat = 5 := rfl
  rw [glyphAddr, BitVec.toNat_mul, zextByte_toNat, h5]
  omega

/-! ### The instruction cycle -/

/-- The three cases of `STEP` (R105): it halts, it stalls, or it runs the instruction at pc. -/
theorem State.stepCore_cases :
    (s.fault ≠ .none ∧ s.stepCore = .next s) ∨
    (s.fault = .none ∧ s.kstate = .awaitingKey ∧ s.stepCore = .next s) ∨
    (s.fault = .none ∧ s.kstate = .running ∧ s.stepCore = s.runInstr) := by
  unfold State.stepCore
  cases s.fault <;> cases s.kstate <;> simp

theorem State.stepCore_halted (h : s.fault ≠ .none) : s.stepCore = .next s := by
  rcases s.stepCore_cases with ⟨-, e⟩ | ⟨hf, -⟩ | ⟨hf, -⟩
  exacts [e, absurd hf h, absurd hf h]

theorem State.stepCore_stalled (hk : s.kstate = .awaitingKey) : s.stepCore = .next s := by
  rcases s.stepCore_cases with ⟨-, e⟩ | ⟨-, -, e⟩ | ⟨-, hr, -⟩
  exacts [e, e, absurd (hk.symm.trans hr) (by decide)]

theorem State.stepCore_running (hf : s.fault = .none) (hk : s.kstate = .running) : s.stepCore = s.runInstr := by
  unfold State.stepCore; rw [hf, hk]

/-- The two cases of an instruction (R107, R108). -/
theorem State.runInstr_ok {i : Instr} (h : decode s.fetchWord = .ok i) : s.runInstr = exec i s := by
  unfold State.runInstr; rw [h]

theorem State.runInstr_error {e : DecodeError} (h : decode s.fetchWord = .error e) :
    s.runInstr = .next (s.raise .unknownOpcode s.fetchWord) := by
  unfold State.runInstr; rw [h]

/-- All that a `STEP` can do: nothing, one instruction, or the fault of an unknown word. -/
theorem State.stepCore_inv {s t : State} (h : s.stepCore = .next t) :
    t = s ∨ (s.fault = .none ∧ s.kstate = .running ∧
      ((∃ i, decode s.fetchWord = .ok i ∧ exec i s = .next t) ∨
        ∃ e, decode s.fetchWord = .error e ∧ t = s.raise .unknownOpcode s.fetchWord)) := by
  rcases s.stepCore_cases with ⟨-, e⟩ | ⟨-, -, e⟩ | ⟨hf, hk, e⟩
  · rw [e] at h; cases h; exact .inl rfl
  · rw [e] at h; cases h; exact .inl rfl
  · rw [e] at h
    refine .inr ⟨hf, hk, ?_⟩
    cases hd : decode s.fetchWord with
    | ok i => rw [State.runInstr_ok s hd] at h; exact .inl ⟨i, rfl, h⟩
    | error e => rw [State.runInstr_error s hd] at h; cases h; exact .inr ⟨e, rfl, rfl⟩

/-! ### The command `STEP` -/

/-- A `STEP` ends with its byte gone. -/
theorem State.stepWith_of_next {r : Option Byte} {t : State} (h : (s.sample r).stepCore = .next t) :
    s.stepWith r = .next t.dropSample := by
  unfold State.stepWith; rw [h]

/-- What a `STEP` answers is what the core did with the byte sampled, and then the byte is gone. -/
theorem State.stepWith_eq_next {s t : State} {r : Option Byte} (h : s.stepWith r = .next t) :
    ∃ u, (s.sample r).stepCore = .next u ∧ t = u.dropSample := by
  unfold State.stepWith at h
  split at h
  · next u hu => cases h; exact ⟨u, hu, rfl⟩
  · cases h
  · cases h

theorem State.stepWith_halted (r : Option Byte) (h : s.fault ≠ .none) : s.stepWith r = .next s.dropSample :=
  s.stepWith_of_next (t := s.sample r) (State.stepCore_halted (s.sample r) h)

theorem State.stepWith_stalled (r : Option Byte) (hk : s.kstate = .awaitingKey) : s.stepWith r = .next s.dropSample :=
  s.stepWith_of_next (t := s.sample r) (State.stepCore_stalled (s.sample r) hk)

theorem State.stepWith_ok {r : Option Byte} {i : Instr} {t : State} (hf : s.fault = .none) (hk : s.kstate = .running)
    (hd : decode s.fetchWord = .ok i) (h : exec i (s.sample r) = .next t) : s.stepWith r = .next t.dropSample :=
  s.stepWith_of_next (by
    rw [State.stepCore_running (s.sample r) hf hk, State.runInstr_ok (s.sample r) hd, h])

theorem State.stepWith_error (r : Option Byte) {e : DecodeError} (hf : s.fault = .none) (hk : s.kstate = .running)
    (hd : decode s.fetchWord = .error e) : s.stepWith r = .next (s.raise .unknownOpcode s.fetchWord).dropSample :=
  s.stepWith_of_next (t := (s.sample r).raise .unknownOpcode s.fetchWord)
    (by rw [State.stepCore_running (s.sample r) hf hk]; exact State.runInstr_error (s.sample r) hd)

/-- A byte sampled earlier has no part in a `STEP` (R42, R109). -/
@[simp] theorem State.stepWith_sample (r r' : Option Byte) : (s.sample r).stepWith r' = s.stepWith r' := rfl

/-- The result of a command that leaves no fault is OK, and else the record (R43). -/
theorem State.result_eq : s.result = if s.fault = .none then .ok else .fault s.fault s.faultWord := by
  unfold State.result
  cases s.fault <;> rfl

/-! ### The step -/

theorem step_of_nil (h : s.pending = []) : step s = s.stepWith none := by
  unfold step State.issueNext; rw [h]; rfl

theorem step_of_cons {c : Command} {rest : List Command} (h : s.pending = c :: rest) :
    step s = perform c { s with pending := rest, rnd := none } := by
  unfold step State.issueNext; rw [h]

/-- A run of no steps. -/
theorem run_zero : Host.Core.run core 0 s = .next s := rfl

/-- A run of `k + 1` steps is one step and a run of `k`, of any machine. -/
theorem run_succ_of_step (M : Host.Core) (k : Nat) {u v : M.State} (h : M.step u = .next v) :
    Host.Core.run M (k + 1) u = Host.Core.run M k v := by
  rw [Host.Core.run, h]

/-- A run of `k + 1` steps of the core is one step and a run of `k`. -/
theorem run_succ {t : State} (k : Nat) (h : step s = .next t) :
    Host.Core.run core (k + 1) s = Host.Core.run core k t := run_succ_of_step core k h

/-! ### Commands -/

theorem State.tickDown_toNat (b : Byte) : (tickDown b).toNat = b.toNat - 1 := by
  unfold tickDown
  have := b.isLt
  have h1 : (1 : Byte).toNat = 1 := rfl
  split
  · rw [BitVec.toNat_sub, h1]; omega
  · omega

theorem expires_iff (b : Byte) : expires b = true ↔ b = 1 := by
  revert b; decide

/-- The four cases of a key event (R259, R260, R297). -/
theorem State.keyEvent_cases (k : KeyIndex) (p : Bool) :
    (p = true ∧ s.kstate = .awaitingKey ∧ s.fault = .none ∧ s.keyEvent k p = s.acceptKey k) ∨
    ((p = false ∨ s.kstate = .running ∨ s.fault ≠ .none) ∧ s.keyEvent k p = s.setKey k p) := by
  unfold State.keyEvent
  cases p <;> cases s.kstate <;> cases s.fault <;> simp

/-- The three cases of a load (R296, R332, R333). -/
theorem State.load_cases (bytes : List Byte) :
    (s.fault ≠ .none ∧ s.load bytes = s) ∨
    (s.fault = .none ∧ Config.romMax < bytes.length ∧ s.load bytes = s.raise .romTooLarge 0x0000) ∨
    (s.fault = .none ∧ bytes.length ≤ Config.romMax ∧
      s.load bytes = { s with mem := s.mem.writeAll s.font Config.romBase bytes }) := by
  unfold State.load
  split
  · next h => exact .inl ⟨h, rfl⟩
  · next h =>
    have hf : s.fault = .none := not_not.mp h
    split
    · next hl => exact .inr (.inl ⟨hf, hl, rfl⟩)
    · next hl => exact .inr (.inr ⟨hf, not_lt.mp hl, rfl⟩)

/-- Beyond the font memory is zero at reset (R46, R64). -/
theorem unlisted_beyond_font (font : Font) {a : Nat} (h : 80 ≤ a) : unlisted font a = 0x00 :=
  dif_neg (Nat.not_lt.mpr h)

/-- Below 0x050 memory is `FONT` at reset (R65). -/
theorem unlisted_font (font : Font) {a : Nat} (h : a < 80) : unlisted font a = font[a] := dif_pos h

end Sys2Proof.Machine
end

