-- ==== Sys2Proof/Laws/PerInstr.lean ====
section
/-! SUPPORT. The family `RowMatch`, one lemma per instruction: the word of an instruction is an instance of the pattern of
its row in R94's table. -/

namespace Sys2Proof.Laws.RowMatch

/-- The instruction's row exists and its word matches the row's mask and match (R94). -/
def Statement (i : Instr) : Prop :=
  ∃ p, patternTable[i.row]? = some p ∧ matchesPattern (encode i) p = true

/-- A word whose masked value is the row's match is an instance of the row. -/
theorem of_mask {i : Instr} (p : Word × Word) (hrow : patternTable[i.row]? = some p) (h : encode i &&& p.1 = p.2) :
    Statement i := ⟨p, hrow, by simp [matchesPattern, h]⟩

theorem cls : Statement .cls := of_mask _ rfl rfl
theorem ret : Statement .ret := of_mask _ rfl rfl
theorem jp (nnn : Addr) : Statement (.jp nnn) := of_mask _ rfl (formatA_and_mask ..)
theorem call (nnn : Addr) : Statement (.call nnn) := of_mask _ rfl (formatA_and_mask ..)
theorem seByte (x : Reg) (nn : Byte) : Statement (.seByte x nn) := of_mask _ rfl (formatXK_and_maskA ..)
theorem sneByte (x : Reg) (nn : Byte) : Statement (.sneByte x nn) := of_mask _ rfl (formatXK_and_maskA ..)
theorem seReg (x y : Reg) (d : BitVec 4) : Statement (.seReg x y d) := of_mask _ rfl (formatXY_and_maskA ..)
theorem ldByte (x : Reg) (nn : Byte) : Statement (.ldByte x nn) := of_mask _ rfl (formatXK_and_maskA ..)
theorem addByte (x : Reg) (nn : Byte) : Statement (.addByte x nn) := of_mask _ rfl (formatXK_and_maskA ..)
theorem ldReg (x y : Reg) : Statement (.ldReg x y) := of_mask _ rfl (formatXY_and_mask ..)
theorem orReg (x y : Reg) : Statement (.orReg x y) := of_mask _ rfl (formatXY_and_mask ..)
theorem andReg (x y : Reg) : Statement (.andReg x y) := of_mask _ rfl (formatXY_and_mask ..)
theorem xorReg (x y : Reg) : Statement (.xorReg x y) := of_mask _ rfl (formatXY_and_mask ..)
theorem addReg (x y : Reg) : Statement (.addReg x y) := of_mask _ rfl (formatXY_and_mask ..)
theorem subReg (x y : Reg) : Statement (.subReg x y) := of_mask _ rfl (formatXY_and_mask ..)
theorem shr (x y : Reg) : Statement (.shr x y) := of_mask _ rfl (formatXY_and_mask ..)
theorem subnReg (x y : Reg) : Statement (.subnReg x y) := of_mask _ rfl (formatXY_and_mask ..)
theorem shl (x y : Reg) : Statement (.shl x y) := of_mask _ rfl (formatXY_and_mask ..)
theorem sneReg (x y : Reg) (d : BitVec 4) : Statement (.sneReg x y d) := of_mask _ rfl (formatXY_and_maskA ..)
theorem ldI (nnn : Addr) : Statement (.ldI nnn) := of_mask _ rfl (formatA_and_mask ..)
theorem jpV0 (nnn : Addr) : Statement (.jpV0 nnn) := of_mask _ rfl (formatA_and_mask ..)
theorem rnd (x : Reg) (nn : Byte) : Statement (.rnd x nn) := of_mask _ rfl (formatXK_and_maskA ..)
theorem drw (x y : Reg) (n : Rows) : Statement (.drw x y n) := of_mask _ rfl (formatXY_and_maskA ..)
theorem skp (x : Reg) : Statement (.skp x) := of_mask _ rfl (formatXK_and_mask ..)
theorem sknp (x : Reg) : Statement (.sknp x) := of_mask _ rfl (formatXK_and_mask ..)
theorem ldVxDT (x : Reg) : Statement (.ldVxDT x) := of_mask _ rfl (formatXK_and_mask ..)
theorem ldVxK (x : Reg) : Statement (.ldVxK x) := of_mask _ rfl (formatXK_and_mask ..)
theorem ldDTVx (x : Reg) : Statement (.ldDTVx x) := of_mask _ rfl (formatXK_and_mask ..)
theorem ldSTVx (x : Reg) : Statement (.ldSTVx x) := of_mask _ rfl (formatXK_and_mask ..)
theorem addIVx (x : Reg) : Statement (.addIVx x) := of_mask _ rfl (formatXK_and_mask ..)
theorem ldFVx (x : Reg) : Statement (.ldFVx x) := of_mask _ rfl (formatXK_and_mask ..)
theorem ldBVx (x : Reg) : Statement (.ldBVx x) := of_mask _ rfl (formatXK_and_mask ..)
theorem storeRegs (x : Reg) : Statement (.storeRegs x) := of_mask _ rfl (formatXK_and_mask ..)
theorem loadRegs (x : Reg) : Statement (.loadRegs x) := of_mask _ rfl (formatXK_and_mask ..)

end Sys2Proof.Laws.RowMatch
end

