-- ==== Sys2Proof/Tests/Slice0.lean ====
section
/-! SUPPORT. The model's own tests. The words are written out from the layouts of R93 and R94; the expected results of the
one-step tests are those of spec/95_test_vectors.md, whose vector each test names, or worked out by hand from the rule it
names. The last part gives, for every statement with hypotheses, a concrete state and operands that meet them. -/

namespace Sys2Proof.Tests

open Sys2Proof.Machine

/-! ### Helpers -/

/-- The reset state with its elements set by `f`, and a word placed where the next step fetches. -/
def start (w : Nat) (f : State → State) : State := (f State.reset).withFetchWord 16 w

/-- An outcome is a next state that passes a check. -/
def passes (o : Host.Outcome State Fault Refusal) (p : State → Bool) : Bool :=
  match o with
  | .next t => p t
  | .fault _ => false
  | .refused _ => false

/-- An outcome is the given next state. -/
def isNext (o : Host.Outcome State Fault Refusal) (t : State) : Bool := passes o (fun u => u == t)

/-- One step from `start w f` passes a check. -/
def runs (w : Nat) (f : State → State) (p : State → Bool) : Bool := passes (step (start w f)) p

/-- V1 and V2 set, the pair of most ALU vectors. -/
def pair (a b : Byte) (s : State) : State := (s.setV 1 a).setV 2 b

/-- A byte of memory, by its address. -/
def byteAt (s : State) (a : Nat) : Byte := s.mem.read s.font a

/-- A byte stored in memory. -/
def poke (a : Nat) (b : Byte) (s : State) : State := { s with mem := s.mem.write s.font a b }

/-- A pixel lit. -/
def lit (px : Fin 64) (py : Fin 32) (s : State) : State := { s with fb := togglePixel s.fb px py }

/-- The framebuffer that has exactly the given pixels on. -/
def pixels (l : List (Fin 64 × Fin 32)) : Framebuffer := l.foldl (fun fb p => togglePixel fb p.1 p.2) blankDisplay

/-! ### Well-formedness (R96, R101) -/

theorem test_wellFormed_refuses_seReg_low_nibble : (Instr.seReg 1 2 1).wellFormed = false := by decide
theorem test_wellFormed_refuses_sneReg_low_nibble : (Instr.sneReg 1 2 15).wellFormed = false := by decide
theorem test_wellFormed_refuses_shr_with_y : (Instr.shr 1 2).wellFormed = false := by decide
theorem test_wellFormed_refuses_shl_with_y : (Instr.shl 1 2).wellFormed = false := by decide
theorem test_wellFormed_accepts : (Instr.seReg 1 2 0).wellFormed ∧ (Instr.shl 15 0).wellFormed ∧ (Instr.drw 15 15 15).wellFormed := by
  decide

/-! ### Decoding, every constructor (R93, R94) -/

theorem test_decode_display :
    decode 0b0000000011100000 = .ok .cls ∧ decode 0b1101111100100000 = .ok (.drw 15 2 0) ∧
    decode 0b1101000110101111 = .ok (.drw 1 10 15) := by decide

theorem test_decode_control :
    decode 0b0000000011101110 = .ok .ret ∧ decode 0b0001101010111100 = .ok (.jp 0xABC) ∧
    decode 0b0010111100000001 = .ok (.call 0xF01) ∧ decode 0b0011000100100010 = .ok (.seByte 1 0x22) ∧
    decode 0b0100111010000001 = .ok (.sneByte 14 0x81) ∧ decode 0b0101000100100000 = .ok (.seReg 1 2 0) ∧
    decode 0b0101111100011111 = .ok (.seReg 15 1 15) ∧ decode 0b1001001011110000 = .ok (.sneReg 2 15 0) ∧
    decode 0b1001000100101000 = .ok (.sneReg 1 2 8) ∧ decode 0b1011111111110001 = .ok (.jpV0 0xFF1) := by decide

theorem test_decode_alu_immediate :
    decode 0b0110001101000010 = .ok (.ldByte 3 0x42) ∧ decode 0b0111111100000010 = .ok (.addByte 15 0x02) ∧
    decode 0b1100000110000001 = .ok (.rnd 1 0x81) := by decide

theorem test_decode_alu_register :
    decode 0b1000000111110000 = .ok (.ldReg 1 15) ∧ decode 0b1000000111110001 = .ok (.orReg 1 15) ∧
    decode 0b1000000111110010 = .ok (.andReg 1 15) ∧ decode 0b1000000111110011 = .ok (.xorReg 1 15) ∧
    decode 0b1000000111110100 = .ok (.addReg 1 15) ∧ decode 0b1000000111110101 = .ok (.subReg 1 15) ∧
    decode 0b1000000111110110 = .ok (.shr 1 15) ∧ decode 0b1000000111110111 = .ok (.subnReg 1 15) ∧
    decode 0b1000000111111110 = .ok (.shl 1 15) := by decide

theorem test_decode_index_memory :
    decode 0b1010000100100011 = .ok (.ldI 0x123) ∧ decode 0b1111110100011110 = .ok (.addIVx 13) ∧
    decode 0b1111110100101001 = .ok (.ldFVx 13) ∧ decode 0b1111110100110011 = .ok (.ldBVx 13) ∧
    decode 0b1111110101010101 = .ok (.storeRegs 13) ∧ decode 0b1111110101100101 = .ok (.loadRegs 13) := by decide

theorem test_decode_keys_timers :
    decode 0b1110101110011110 = .ok (.skp 11) ∧ decode 0b1110101110100001 = .ok (.sknp 11) ∧
    decode 0b1111101100000111 = .ok (.ldVxDT 11) ∧ decode 0b1111101100001010 = .ok (.ldVxK 11) ∧
    decode 0b1111101100010101 = .ok (.ldDTVx 11) ∧ decode 0b1111101100011000 = .ok (.ldSTVx 11) := by decide

/-- V5 to V13. -/
theorem test_decode_refuses_by_name :
    decode 0x0000 = .error (.unknownOpcode 0x0000) ∧ decode 0x0123 = .error (.unknownOpcode 0x0123) ∧
    decode 0x00E1 = .error (.unknownOpcode 0x00E1) ∧ decode 0x00FE = .error (.unknownOpcode 0x00FE) ∧
    decode 0x8008 = .error (.unknownOpcode 0x8008) ∧ decode 0x800F = .error (.unknownOpcode 0x800F) ∧
    decode 0xE09F = .error (.unknownOpcode 0xE09F) ∧ decode 0xF000 = .error (.unknownOpcode 0xF000) ∧
    decode 0xFFFF = .error (.unknownOpcode 0xFFFF) := by decide

/-- The high byte comes first, and the bytes after the word are left (R68). -/
theorem test_decodeBytes : decodeBytes [0x12, 0x34, 0x56] = .ok (.jp 0x234, [0x56]) ∧ decodeBytes [0x12] = .error .truncated := by
  decide

/-- The words of the encoder are those of the layouts of R93. -/
theorem test_encode :
    encode (.jp 0xABC) = 0x1ABC ∧ encode (.seByte 1 0x22) = 0x3122 ∧ encode (.subReg 2 15) = 0x82F5 ∧
    encode (.drw 14 1 5) = 0xDE15 ∧ encode (.sknp 6) = 0xE6A1 ∧ encode (.loadRegs 3) = 0xF365 ∧
    encodeBytes (.jp 0x234) = [0x12, 0x34] := by decide

theorem test_decodeTableWord : decodeTableWord 16 0x8126 = some (.shr 1 2) ∧ decodeTableWord 16 0x0123 = none := by decide

/-! ### Fetch (95_test_vectors.md, 2.1) -/

/-- V1. -/
theorem test_fetch_big_endian : runs 0x1234 id (fun t => t.pc == 0x234) := by decide
/-- V2. -/
theorem test_fetch_wraps :
    passes (step (poke 0xFFF 0x60 { State.reset with pc := 0x0FFF })) (fun t => t.getV 0 == 0xF0 && t.pc == 0x1001) := by decide
/-- V3. -/
theorem test_fetch_reduces_pc :
    isNext (step { State.reset with pc := 0x1000 })
      { State.reset with pc := 0x1000, fault := .unknownOpcode, faultWord := 0xF090 } := by decide
/-- V4. -/
theorem test_fetch_odd_pc : runs 0x6107 (fun s => { s with pc := 0x0201 }) (fun t => t.getV 1 == 0x07 && t.pc == 0x203) := by decide
/-- V5: from reset with nothing loaded. -/
theorem test_empty_memory_is_unknown_opcode :
    isNext (step State.reset) { State.reset with fault := .unknownOpcode } := by decide
/-- V16. -/
theorem test_halted_step_changes_nothing :
    isNext (step { State.reset with fault := .unknownOpcode }) { State.reset with fault := .unknownOpcode } := by decide
/-- V55. -/
theorem test_pc_wraps : runs 0x6001 (fun s => { s with pc := 0xFFFE }) (fun t => t.getV 0 == 0x01 && t.pc == 0) := by decide

/-! ### Display (2.2) -/

/-- V20. -/
theorem test_cls : runs 0x00E0 (lit 5 0) (fun t => t.fb == blankDisplay && t.redraw && t.pc == 0x202) := by decide
/-- V22: the wrap on both axes, and the bit order. -/
theorem test_drw_wraps :
    runs 0xD011 (fun s => poke 0x300 0xC3 { (s.setV 0 62).setV 1 31 with i := 0x300 })
      (fun t => t.fb == pixels [(62, 31), (63, 31), (4, 31), (5, 31)] && t.getV VF == 0 && t.redraw && t.pc == 0x202) := by
  decide +kernel
/-- V25: a partial collision. -/
theorem test_drw_collision :
    runs 0xD011 (fun s => poke 0x300 0x81 { lit 0 0 s with i := 0x300 })
      (fun t => t.fb == pixels [(7, 0)] && t.getV VF == 1) := by decide +kernel

/-! ### Control (2.3) -/

/-- V40. -/
theorem test_jp : runs 0x1ABC id (fun t => t.pc == 0x0ABC) := by decide
/-- V42. -/
theorem test_call : runs 0x2400 id (fun t => t.stack[0] == 0x0200 && t.sp == 1 && t.pc == 0x0400) := by decide
/-- V45. -/
theorem test_call_overflow :
    runs 0x2300 (fun s => { s with sp := 16 })
      (fun t => t.fault == .stackOverflow && t.faultWord == 0x2300 && t.sp == 16 && t.pc == 0x200) := by decide
/-- V43. -/
theorem test_ret :
    runs 0x00EE (fun s => { s with sp := 1, stack := s.stack.set 0 0x0200, pc := 0x040A })
      (fun t => t.sp == 0 && t.pc == 0x0202 && t.stack[0] == 0x0200) := by decide
/-- V46. -/
theorem test_ret_underflow :
    runs 0x00EE id (fun t => t.fault == .stackUnderflow && t.faultWord == 0x00EE && t.pc == 0x200) := by decide
/-- V47. -/
theorem test_seByte : runs 0x3122 (pair 0x22 0) (fun t => t.pc == 0x204) ∧ runs 0x3123 (pair 0x22 0) (fun t => t.pc == 0x202) := by
  decide
/-- V48. -/
theorem test_sneByte : runs 0x4123 (pair 0x22 0) (fun t => t.pc == 0x204) ∧ runs 0x4122 (pair 0x22 0) (fun t => t.pc == 0x202) := by
  decide
/-- V14 and V50. -/
theorem test_seReg : runs 0x5121 (pair 7 7) (fun t => t.pc == 0x204) ∧ runs 0x5120 (pair 7 8) (fun t => t.pc == 0x202) := by decide
/-- V15 and V50. -/
theorem test_sneReg : runs 0x912F (pair 7 8) (fun t => t.pc == 0x204) ∧ runs 0x9110 (pair 7 8) (fun t => t.pc == 0x202) := by decide
/-- V52. -/
theorem test_jpV0_not_masked : runs 0xBFFF (fun s => s.setV 0 0xFF) (fun t => t.pc == 0x10FE) := by decide
/-- V53: x selects no register. -/
theorem test_jpV0_uses_V0 : runs 0xB530 (fun s => s.setV 5 0x77) (fun t => t.pc == 0x0530) := by decide

/-! ### Arithmetic, logic, random (2.4) -/

/-- V60. -/
theorem test_ldByte : runs 0x6342 id (fun t => t.getV 3 == 0x42 && t.pc == 0x202) := by decide
/-- V62. -/
theorem test_addByte_no_flag : runs 0x7101 (fun s => (pair 0xFF 0 s).setV VF 0x55) (fun t => t.getV 1 == 0 && t.getV VF == 0x55) := by
  decide
/-- V65. -/
theorem test_ldReg : runs 0x8120 (pair 0 0x10) (fun t => t.getV 1 == 0x10 && t.getV 2 == 0x10) := by decide
/-- V66. -/
theorem test_orReg : runs 0x8121 (fun s => (pair 0x0F 0xF0 s).setV VF 0x33) (fun t => t.getV 1 == 0xFF && t.getV VF == 0x33) := by
  decide
/-- V67. -/
theorem test_andReg : runs 0x8122 (pair 0x3C 0x0F) (fun t => t.getV 1 == 0x0C) := by decide
/-- V68. -/
theorem test_xorReg : runs 0x8123 (pair 0xFF 0x0F) (fun t => t.getV 1 == 0xF0) := by decide
/-- V70 and V71. -/
theorem test_addReg :
    runs 0x8124 (pair 0xFF 0x01) (fun t => t.getV 1 == 0 && t.getV VF == 1) ∧
    runs 0x8124 (pair 0x7F 0x01) (fun t => t.getV 1 == 0x80 && t.getV VF == 0) := by decide
/-- V74 and V75: the result stays in VF, and Vy is latched. -/
theorem test_addReg_VF :
    runs 0x8F14 (fun s => (pair 3 0 s).setV VF 0xFF) (fun t => t.getV VF == 2) ∧
    runs 0x81F4 (fun s => (pair 0x10 0 s).setV VF 0xF5) (fun t => t.getV 1 == 5 && t.getV VF == 1) := by decide
/-- V76 and V78: the comparison is strict. -/
theorem test_subReg :
    runs 0x8125 (pair 5 5) (fun t => t.getV 1 == 0 && t.getV VF == 0) ∧
    runs 0x8125 (pair 9 1) (fun t => t.getV 1 == 8 && t.getV VF == 1) := by decide
/-- V80 and V77. -/
theorem test_subReg_VF :
    runs 0x8F15 (fun s => (pair 0x0A 0 s).setV VF 0x14) (fun t => t.getV VF == 0x0A) ∧
    runs 0x8125 (pair 0 1) (fun t => t.getV 1 == 0xFF && t.getV VF == 0) := by decide
/-- V84 and V81: Vy plays no part. -/
theorem test_shr :
    runs 0x8126 (pair 4 0xFF) (fun t => t.getV 1 == 2 && t.getV VF == 0) ∧
    runs 0x8106 (pair 5 0) (fun t => t.getV 1 == 2 && t.getV VF == 1) := by decide
/-- V85. -/
theorem test_shr_VF : runs 0x8F06 (fun s => s.setV VF 7) (fun t => t.getV VF == 3) := by decide
/-- V86 and V88. -/
theorem test_subnReg :
    runs 0x8127 (pair 0x0A 0xFA) (fun t => t.getV 1 == 0xF0 && t.getV VF == 1) ∧
    runs 0x8127 (pair 0x33 0x33) (fun t => t.getV 1 == 0 && t.getV VF == 0) := by decide
/-- V89 and V90. -/
theorem test_subnReg_VF :
    runs 0x8F27 (fun s => (pair 0 0x1E s).setV VF 0x0A) (fun t => t.getV VF == 0x14) ∧
    runs 0x81F7 (fun s => (pair 0x0A 0 s).setV VF 0x1E) (fun t => t.getV 1 == 0x14 && t.getV VF == 1) := by decide
/-- V91 and V92. -/
theorem test_shl :
    runs 0x810E (pair 0x81 0) (fun t => t.getV 1 == 2 && t.getV VF == 1) ∧
    runs 0x810E (pair 0x40 0) (fun t => t.getV 1 == 0x80 && t.getV VF == 0) := by decide
/-- V94. -/
theorem test_shl_VF : runs 0x8F0E (fun s => s.setV VF 0xC0) (fun t => t.getV VF == 0x80) := by decide
/-- V95 and V98: the byte that STEP presents is the draw. -/
theorem test_rnd_presented :
    passes (perform (.step (some 0xA5)) (start 0xC10F id)) (fun t => t.getV 1 == 5 && t.rnd == none) ∧
    passes (perform (.step (some 0x3C)) (start 0xCFFF id)) (fun t => t.getV VF == 0x3C) := by decide
/-- V96, for a free draw: whatever the free value is, a mask of 00 gives 00 (R192). -/
theorem test_rnd_free_draw_masked_to_zero : passes (exec (.rnd 1 0x00) State.reset) (fun t => t.getV 1 == 0 && t.draws == 1) = true := by
  simp [passes, exec, execRnd, State.advance, State.getV, State.setV, State.consumeDraw, State.reset]

/-! ### Index register and memory (2.5) -/

/-- V100. -/
theorem test_ldI : runs 0xA123 (fun s => { s with i := 0xFFFF }) (fun t => t.i == 0x0123) := by decide
/-- V102 and V103. -/
theorem test_addIVx :
    runs 0xF11E (fun s => { pair 1 0 s with i := 0x0FFF }) (fun t => t.i == 0x1000 && t.getV VF == 0) ∧
    runs 0xF11E (fun s => { pair 2 0 s with i := 0xFFFF }) (fun t => t.i == 0x0001) := by decide
/-- V104 and V106. -/
theorem test_ldFVx : runs 0xF129 (pair 0x0A 0) (fun t => t.i == 0x0032) ∧ runs 0xF129 (pair 0xFF 0) (fun t => t.i == 0x04FB) := by
  decide
/-- V107. -/
theorem test_ldBVx :
    runs 0xF033 (fun s => { s.setV 0 0xFE with i := 0x300 })
      (fun t => byteAt t 0x300 == 2 && byteAt t 0x301 == 5 && byteAt t 0x302 == 4 && t.i == 0x300) := by decide
/-- V110: the font is overwritten. -/
theorem test_ldBVx_wraps :
    runs 0xF033 (fun s => { s.setV 0 0x7B with i := 0x0FFF })
      (fun t => byteAt t 0xFFF == 1 && byteAt t 0x000 == 2 && byteAt t 0x001 == 3) := by decide
/-- V111. -/
theorem test_storeRegs :
    runs 0xF055 (fun s => { (s.setV 0 0x0B).setV 1 0x22 with i := 0x310 })
      (fun t => byteAt t 0x310 == 0x0B && byteAt t 0x311 == 0 && t.i == 0x310) := by decide
/-- V116: the next step executes the stored word. -/
theorem test_store_into_code :
    passes (step (start 0xF155 (fun s => poke 0x203 0xE0 { (s.setV 0 0x60).setV 1 0x01 with i := 0x202 })))
      (fun t => passes (step t) (fun u => u.getV 0 == 0x01 && u.redraw == false && u.pc == 0x204)) := by decide
/-- V114. -/
theorem test_loadRegs :
    runs 0xF265 (fun s => poke 0x300 2 (poke 0x301 5 (poke 0x302 4 { s.setV 3 0x99 with i := 0x300 })))
      (fun t => t.getV 0 == 2 && t.getV 1 == 5 && t.getV 2 == 4 && t.getV 3 == 0x99) := by decide
/-- V115. -/
theorem test_loadRegs_wraps :
    runs 0xF265 (fun s => poke 0xFFE 0x0A (poke 0xFFF 0x0B { s with i := 0x0FFE }))
      (fun t => t.getV 0 == 0x0A && t.getV 1 == 0x0B && t.getV 2 == 0xF0) := by decide

/-! ### Keys and timers (2.6) -/

/-- V121 and V122. -/
theorem test_skp :
    runs 0xE19E (fun s => (pair 0x15 0 s).setKey 5 true) (fun t => t.pc == 0x204) ∧
    runs 0xE19E (pair 5 0) (fun t => t.pc == 0x202) := by decide
/-- V123 and V124. -/
theorem test_sknp :
    runs 0xE1A1 (pair 5 0) (fun t => t.pc == 0x204) ∧
    runs 0xE1A1 (fun s => (pair 5 0 s).setKey 5 true) (fun t => t.pc == 0x202) := by decide
/-- V125. -/
theorem test_ldVxDT : runs 0xF207 (fun s => { s with dt := 0x3C }) (fun t => t.getV 2 == 0x3C && t.dt == 0x3C) := by decide
/-- V126. -/
theorem test_ldDTVx : runs 0xF115 (pair 7 0) (fun t => t.dt == 7 && t.st == 0) := by decide
/-- V127. -/
theorem test_ldSTVx : runs 0xF118 (pair 1 0) (fun t => t.st == 1 && t.dt == 0) := by decide
/-- V130: a held key does not end the wait. -/
theorem test_ldVxK :
    passes (step (start 0xF10A (fun s => s.setKey 4 true)))
      (fun t => t.kstate == .awaitingKey && t.ktarget == 1 && t.pc == 0x200 && isNext (step t) t) := by decide

/-! ### Host commands (2.2, 2.6, 2.7) -/

/-- V131 and V135. -/
theorem test_key_press_ends_the_wait :
    passes (perform (.key 7 true) { State.reset with kstate := .awaitingKey, ktarget := 1 })
      (fun t => t.getKey 7 && t.getV 1 == 7 && t.kstate == .running && t.pc == 0x202) ∧
    passes (perform (.key 10 true) { State.reset with kstate := .awaitingKey, ktarget := 15 })
      (fun t => t.getKey 10 && t.getV VF == 0x0A && t.pc == 0x202) := by decide
/-- V133 and V134. -/
theorem test_key_other_events :
    passes (perform (.key 4 false) { State.reset.setKey 4 true with kstate := .awaitingKey, ktarget := 1 })
      (fun t => t.getKey 4 == false && t.kstate == .awaitingKey && t.pc == 0x200) ∧
    isNext (perform (.key 3 true) State.reset) (State.reset.setKey 3 true) := by decide
/-- V137, V139 and V140. -/
theorem test_tick :
    passes (perform .tick { State.reset with dt := 2 }) (fun t => t.dt == 1 && t.st == 0) ∧
    passes (perform .tick { State.reset with st := 1 }) (fun t => t.st == 0 && output .tick { State.reset with st := 1 } t == .expiry true) ∧
    isNext (perform .tick State.reset) State.reset ∧ output .tick State.reset State.reset = .expiry false := by decide
/-- V141. -/
theorem test_tick_while_halted : passes (perform .tick { State.reset with dt := 5, fault := .unknownOpcode }) (fun t => t.dt == 4) := by
  decide
/-- V33. -/
theorem test_clear_redraw :
    isNext (perform .clearRedraw { State.reset with redraw := true }) State.reset := by decide
/-- V150. -/
theorem test_reset_clears_everything :
    isNext (perform .reset (lit 1 1 (poke 0 9 { pair 1 2 State.reset with fault := .stackOverflow, faultWord := 0x2200, sp := 16 })))
      State.reset := by decide
/-- V151 and V152. -/
theorem test_load :
    isNext (perform (.load []) State.reset) State.reset ∧
    passes (perform (.load [0x44]) (poke 0x201 0x22 (poke 0x200 0x11 State.reset)))
      (fun t => byteAt t 0x200 == 0x44 && byteAt t 0x201 == 0x22) := by decide
/-- V154. -/
theorem test_load_too_large :
    isNext (perform (.load (List.replicate 3585 0xAB)) State.reset) { State.reset with fault := .romTooLarge } := by
  decide +kernel
/-- V17. -/
theorem test_load_while_halted :
    isNext (perform (.load [0x00, 0xE0]) { State.reset with fault := .unknownOpcode }) { State.reset with fault := .unknownOpcode } ∧
    output (.load [0x00, 0xE0]) { State.reset with fault := .unknownOpcode } { State.reset with fault := .unknownOpcode } =
      .fault .unknownOpcode 0 := by decide
/-- V18 and R20: a byte that the instruction does not use has no effect and does not stay. -/
theorem test_unused_byte_does_not_stay :
    passes (step { start 0x6105 id with pending := [.step (some 0xA5)] })
      (fun t => t.getV 1 == 5 && t.rnd == none && t.draws == 0) := by decide
/-- V136: a stalled STEP changes nothing and returns OK. -/
theorem test_stalled_step :
    isNext (perform (.step (some 0x77)) { State.reset with kstate := .awaitingKey }) { State.reset with kstate := .awaitingKey } ∧
    output (.step (some 0x77)) State.reset { State.reset with kstate := .awaitingKey } = .ok := by decide
/-- R41: commands that wait are issued oldest first. -/
theorem test_commands_in_order :
    passes (step { State.reset with pending := [.key 2 true, .tick] }) (fun t => t.getKey 2 && t.pending == [.tick]) := by decide
/-- R290. -/
theorem test_fault_codes :
    [FaultKind.none, .romTooLarge, .unknownOpcode, .stackOverflow, .stackUnderflow].map FaultKind.code = [0, 1, 2, 3, 4] := by decide
/-- Writing what an unlisted address reads as leaves no entry (log 12). -/
theorem test_memory_canonical :
    (poke 0x300 0 (poke 0x300 7 State.reset)).mem = [] ∧ (poke 0 0xF0 (poke 0 7 State.reset)).mem = [] ∧
    (poke 0x300 7 (poke 0x301 8 State.reset)).mem = [(0x300, 7), (0x301, 8)] := by decide
/-- R65: RESET copies the parameter FONT, whatever it is. -/
theorem test_reset_copies_the_parameter :
    passes (perform .reset (poke 0 9 { State.reset with font := Vector.replicate 80 0xAA }))
      (fun t => byteAt t 0 == 0xAA && byteAt t 79 == 0xAA && byteAt t 80 == 0x00) := by decide
/-- 20_memory.md R65: glyph 0, glyph A and glyph F of the default font. -/
theorem test_font :
    (List.range 5).map (byteAt State.reset) = [0xF0, 0x90, 0x90, 0x90, 0xF0] ∧
    (List.range 5).map (fun k => byteAt State.reset (0x32 + k)) = [0xF0, 0x90, 0xF0, 0x90, 0x90] ∧
    (List.range 6).map (fun k => byteAt State.reset (0x4B + k)) = [0xF0, 0x80, 0xF0, 0x80, 0x80, 0x00] := by decide

/-! ### Witnesses: the hypotheses of every statement that has any are met, each clause at a boundary of its range -/

theorem witness_EncodeOfDecodeIsTheWord :
    decode 0x8126 = .ok (.shr 1 2) ∧ decode 0x00EE = .ok .ret ∧ decode 0xFF65 = .ok (.loadRegs 15) := by decide
theorem witness_DecoderRecognisesExactlyTheTable :
    decode 0x8FFE = .ok (.shl 15 15) ∧ patternTable[17]? = some (0xF00F, 0x800E) ∧ matchesPattern 0x8FFE (0xF00F, 0x800E) ∧
    patternTable[33]? = some (0xF0FF, 0xF065) ∧ matchesPattern 0xF065 (0xF0FF, 0xF065) ∧
    patternTable.all (fun p => !matchesPattern 0x0123 p) := by decide
theorem witness_UnknownWordIsRejectedByName :
    decode 0x0000 = .error (.unknownOpcode 0x0000) ∧ decode 0xFFFF = .error (.unknownOpcode 0xFFFF) := by decide

theorem witness_StepRunsTheDecodedInstruction :
    (start 0xDFFF id).pending = [] ∧ (start 0xDFFF id).fault = .none ∧ (start 0xDFFF id).kstate = .running ∧
    decode ((start 0xDFFF id).memRead (start 0xDFFF id).pc ++ (start 0xDFFF id).memRead ((start 0xDFFF id).pc + 1)) =
      .ok (.drw 15 15 15) := by decide
/-- The three states of R105, both ends of the last one, and both results of an instruction. -/
theorem witness_StepChecksHaltThenWaitThenExecutes :
    { State.reset with fault := .unknownOpcode }.fault ≠ .none ∧
    (State.reset.fault = .none ∧ { State.reset with kstate := .awaitingKey }.kstate = .awaitingKey) ∧
    (State.reset.kstate = .running ∧ decode (start 0x00E0 id).fetchWord = .ok .cls ∧
      decode State.reset.fetchWord = .error (.unknownOpcode 0)) ∧
    passes (exec .cls State.reset) (fun u => u.fault == .none) ∧ passes (exec .ret State.reset) (fun u => u.fault != .none) := by
  decide
theorem witness_UnmatchedWordRaisesUnknownOpcode :
    State.reset.fault = .none ∧ State.reset.kstate = .running ∧
    ∀ p ∈ patternTable, matchesPattern (State.reset.memRead State.reset.pc ++ State.reset.memRead (State.reset.pc + 1)) p = false :=
  ⟨rfl, rfl, fun p hp => by
    have e : State.reset.memRead State.reset.pc ++ State.reset.memRead (State.reset.pc + 1) = (0 : Word) := by decide
    have h : patternTable.all (fun p => !matchesPattern 0 p) = true := by decide
    rw [e]; simpa using List.all_eq_true.mp h p hp⟩
theorem witness_StepIssuesTheNextHostCommand :
    State.reset.pending = [] ∧ { State.reset with pending := [.tick, .reset] }.pending = .tick :: [.reset] := by decide

/-- A state in which `D012` has its origin at the bottom right corner. -/
def cornerState : State := poke 0x301 0x01 { (State.reset.setV 0 62).setV 1 31 with i := 0x300 }
/-- A pixel that a set bit covers after the wrap on both axes, and one that none covers. -/
theorem witness_DrawTogglesExactlyTheSpritePixels :
    cornerState.SpriteCovers ((cornerState.getV 0).toNat % 64) ((cornerState.getV 1).toNat % 32) (2 : Rows).val 5 0 ∧
    ¬ cornerState.SpriteCovers ((cornerState.getV 0).toNat % 64) ((cornerState.getV 1).toNat % 32) (0 : Rows).val 5 0 :=
  ⟨⟨1, by decide, 7, by decide, by unfold State.SpriteBitAt; decide⟩, fun ⟨_, h, _⟩ => absurd h (Nat.not_lt_zero _)⟩
/-- A state in which `D011` meets a lit pixel. -/
def litState : State := poke 0x300 0x80 { lit 0 0 State.reset with i := 0x300 }
/-- A covered pixel that is on; and a blank display, where none is. -/
theorem witness_DrawSetsVFToTheCollision :
    (∃ px py, litState.SpriteCovers ((litState.getV 0).toNat % 64) ((litState.getV 1).toNat % 32) (1 : Rows).val px py ∧
      pixelOn litState.fb px py = true) ∧
    ¬ ∃ px py, State.reset.SpriteCovers ((State.reset.getV 0).toNat % 64) ((State.reset.getV 1).toNat % 32) (15 : Rows).val px py ∧
      pixelOn State.reset.fb px py = true :=
  ⟨⟨0, 0, ⟨0, by decide, 0, by decide, by unfold State.SpriteBitAt; decide⟩, by decide⟩,
    fun ⟨px, py, _, h⟩ => absurd h ((by decide +kernel : ∀ px py, pixelOn State.reset.fb px py ≠ true) px py)⟩
theorem witness_DrawFrame : ∃ t, exec (.drw 15 0 15) State.reset = .next t := ⟨_, rfl⟩
theorem witness_FlatIndexNamesThePixel :
    (2047 : Fin 2048).val = (31 : Fin 32).val * 64 + (63 : Fin 64).val ∧ (64 : Fin 2048).val = (1 : Fin 32).val * 64 + (0 : Fin 64).val := by
  decide

theorem witness_CallPushesItsOwnAddress :
    State.reset.sp.val < 16 ∧ { State.reset with sp := 15 }.sp.val < 16 ∧ { State.reset with sp := 16 }.sp.val = 16 := by decide
theorem witness_ReturnGoesToThePoppedAddressPlusTwo :
    { State.reset with sp := 1 }.sp.val = (0 : Fin 16).val + 1 ∧ { State.reset with sp := 16 }.sp.val = (15 : Fin 16).val + 1 ∧
    State.reset.sp.val = 0 := by decide
/-- V42, then the state that `00EE` at 0x400 returns from. -/
theorem witness_ReturnComesBackAfterTheCall :
    ∃ t u, State.reset.sp.val < 16 ∧ exec (.call 0x400) State.reset = .next t ∧ u ≠ t ∧ u.stack = t.stack ∧ u.sp = t.sp :=
  ⟨_, { State.reset with stack := State.reset.stack.set 0 0x0200, sp := 1, pc := 0x40A }, by decide, rfl, by decide, by decide, by decide⟩
theorem witness_SkipOnByteComparesVx : State.reset.getV 15 = 0 ∧ State.reset.getV 15 ≠ 0xFF := by decide
theorem witness_SkipOnRegistersComparesVxVy :
    (pair 7 8 State.reset).getV 1 ≠ (pair 7 8 State.reset).getV 2 ∧ (pair 7 7 State.reset).getV 1 = (pair 7 7 State.reset).getV 2 := by
  decide

/-- The carry just set and just not set, and x other than VF. -/
theorem witness_AddSetsTheCarry :
    (1 : Reg) ≠ VF ∧ ((pair 0xFF 1 State.reset).getV 1).toNat + ((pair 0xFF 1 State.reset).getV 2).toNat = 256 ∧
    ((pair 0xFF 0 State.reset).getV 1).toNat + ((pair 0xFF 0 State.reset).getV 2).toNat = 255 := by decide
theorem witness_SubtractSetsNotBorrow :
    (14 : Reg) ≠ VF ∧ ((pair 5 5 State.reset).getV 1).toNat = ((pair 5 5 State.reset).getV 2).toNat ∧
    ((pair 6 5 State.reset).getV 1).toNat > ((pair 6 5 State.reset).getV 2).toNat := by decide
theorem witness_ShiftsMoveOneBitIntoVF : (0 : Reg) ≠ VF ∧ (14 : Reg) ≠ VF := by decide
theorem witness_RandomIsTheMaskedDraw :
    { State.reset with rnd := some 0xFF }.rnd = some 0xFF ∧ State.reset.rnd = none ∧
    ((start 0xCFFF id).fault = .none ∧ (start 0xCFFF id).kstate = .running ∧
      decode (start 0xCFFF id).fetchWord = .ok (.rnd 15 0xFF)) := by decide
theorem witness_RandomInputMattersOnlyToRnd :
    (∀ x nn, Instr.cls ≠ .rnd x nn) ∧ ∃ t, exec .cls State.reset = .next t := ⟨fun _ _ h => (by cases h), _, rfl⟩

theorem witness_StoreRegistersFromIndex : (15 : Reg) ≤ 15 ∧ (0 : Reg) ≤ 15 ∧ (0 : Reg) ≤ 0 := by decide
theorem witness_LoadRegistersFromIndex : (15 : Reg) ≤ 15 ∧ (0 : Reg) ≤ 14 ∧ (0 : Reg) ≤ 0 := by decide
/-- V116. -/
theorem witness_NextFetchSeesTheStoredCode :
    ∃ t, (1 : Reg).val = (0 : Reg).val + 1 ∧ (1 : Reg) ≤ 1 ∧ exec (.storeRegs 1) { State.reset with i := 0x202 } = .next t ∧
      t.pc = { State.reset with i := 0x202 }.effAddr (0 : Reg).val := ⟨_, by decide, by decide, rfl, by decide⟩

/-- V121: the low nibble selects key 5; pressed and not pressed. -/
theorem witness_KeySkipsTestTheSelectedKey :
    ((pair 0x15 0 State.reset).getV 1).toNat % 16 = (5 : KeyIndex).val ∧ (State.reset.setKey 5 true).getKey 5 = true ∧
    State.reset.getKey 5 = false ∧ ((pair 0xFF 0 State.reset).getV 1).toNat % 16 = (15 : KeyIndex).val := by decide
theorem witness_TimerTransfers : Command.step none ≠ .tick ∧ Command.reset ≠ .tick := by decide
theorem witness_KeyPressEndsTheWait :
    { State.reset with kstate := .awaitingKey }.kstate = .awaitingKey ∧ { State.reset with kstate := .awaitingKey }.fault = .none := by
  decide
theorem witness_OtherKeyEventsOnlyUpdateTheArray :
    (false = false ∨ { State.reset with kstate := .awaitingKey }.kstate = .running) ∧ (true = false ∨ State.reset.kstate = .running) := by
  decide
/-- The corner of log 6: an oversize LOAD during the key wait leaves the core halted and awaiting. -/
theorem witness_HaltedKeyEventsOnlyUpdateTheArray :
    passes (perform (.load (List.replicate 3585 0)) { State.reset with kstate := .awaitingKey })
      (fun t => t.fault != .none && t.kstate == .awaitingKey) := by decide +kernel
/-- Both ends of the sound timer's clauses. -/
theorem witness_TickCountsDownAndSignalsExpiry :
    { State.reset with st := 1 }.st.toNat = 1 ∧ ¬ ({ State.reset with st := 2 }.st.toNat = 1) := by decide
/-- A press and a RESET that end the wait, and an Fx0A that enters it. -/
theorem witness_KeyMachineTransitions :
    passes (step { State.reset with kstate := .awaitingKey, pending := [.key 15 true] }) (fun t => t.kstate == .running) ∧
    passes (step { State.reset with kstate := .awaitingKey, pending := [.reset] }) (fun t => t.kstate == .running) ∧
    runs 0xFF0A id (fun t => t.kstate == .awaitingKey && t.ktarget == 15) := by decide

theorem witness_FaultingCommandChangesOnlyTheRecord :
    State.reset.fault = .none ∧ passes (perform (.step none) State.reset) (fun t => t.fault != .none) ∧
    passes (perform (.load (List.replicate 3585 0)) State.reset) (fun t => t.fault != .none) := by decide +kernel
theorem witness_OnlyResetClearsAFault :
    Command.tick ≠ .reset ∧ Command.load [] ≠ .reset ∧ { State.reset with fault := .stackOverflow }.fault ≠ .none ∧
    passes (perform .tick { State.reset with fault := .stackOverflow }) (fun _ => true) := by decide
theorem witness_HaltedStepAndLoadChangeNothing : { State.reset with fault := .romTooLarge }.fault ≠ .none := by decide
theorem witness_OnlyCallAndReturnRaiseAFault :
    passes (exec .ret State.reset) (fun t => t.fault != State.reset.fault) ∧
    passes (exec (.call 0xFFF) { State.reset with sp := 16 }) (fun t => t.fault == .stackOverflow && t.faultWord == 0x2FFF) := by
  decide

/-- Two bytes, the least that the clause takes, and 3584, the most. -/
theorem witness_FirstFetchAfterResetIsAt200 :
    ([] : List Byte).length + 2 ≤ 3584 ∧ (List.replicate 3582 (0 : Byte)).length + 2 ≤ 3584 ∧
    decode ((0x00 : Byte) ++ (0xE0 : Byte)) = .ok .cls := by decide +kernel
theorem witness_LoadCopiesTheBytes :
    ([] : List Byte).length ≤ 3584 ∧ (List.replicate 3584 (0xAB : Byte)).length ≤ 3584 ∧ State.reset.fault = .none := by decide +kernel
theorem witness_OversizeLoadIsAFault :
    3584 < (List.replicate 3585 (0xAB : Byte)).length ∧ State.reset.fault = .none := by decide +kernel

/-- A byte left behind in a state that no run reaches, and a step that answers a next state. -/
theorem witness_NoSampledByteSurvivesACommand :
    passes (step { start 0x00E0 id with rnd := some 0xA5 }) (fun t => t.rnd == none) := by decide
theorem witness_OnlyNamedRegistersAreWritten : ∃ t, exec (.loadRegs 14) State.reset = .next t ∧ ¬ writesReg (.loadRegs 14) 15 :=
  ⟨_, rfl, by unfold writesReg; decide⟩
theorem witness_OnlyNamedBytesAreStored :
    ∃ t, exec (.ldBVx 0) State.reset = .next t ∧ ¬ State.reset.storesTo (.ldBVx 0) 3 :=
  ⟨_, rfl, fun ⟨k, h, e⟩ => absurd e ((by decide : ∀ k < 3, 3 ≠ reduceAddr (State.reset.effAddr k)) k h)⟩
theorem witness_StateElementsHaveOnlyTheirWriters : ∃ t, exec (.ldVxK 3) State.reset = .next t := ⟨_, rfl⟩
/-- A state that is not the reset state meets the invariant: one whose memory lists a byte, halted by 2FFF on a full stack. -/
theorem witness_EveryStepKeepsTheInvariant :
    (poke 0x300 7 { State.reset with sp := 16, fault := .stackOverflow, faultWord := 0x2FFF }).Inv where
  mem_wf := by decide
  none_word h := by cases h
  rom_word h := by cases h
  unknown_word h := by cases h
  overflow_word _ := ⟨by decide, 0xFFF, by decide⟩
  underflow_word h := by cases h
  awaiting_fault h := by cases h
  no_sample := rfl
/-- A run of two steps, a TICK and a jump, with the flag 0 at its end. -/
theorem witness_RedrawFlagCoversEveryDisplayChange :
    ∃ s t, (∀ c ∈ s.pending, c ≠ .reset ∧ c ≠ .clearRedraw) ∧ Host.Core.run core 2 s = .next t ∧ t.redraw = false :=
  ⟨{ start 0x1234 id with pending := [.tick] }, _, by decide, rfl, by decide⟩
/-- Both ways a run ends. -/
theorem witness_EndedRunChangesNothing :
    { State.reset with fault := .unknownOpcode }.pending = [] ∧ { State.reset with fault := .unknownOpcode }.Ended ∧
    (start 0x1200 id).pending = [] ∧ (start 0x1200 id).Ended :=
  ⟨rfl, .inl (by decide), by decide, .inr ⟨by decide, 0x200, by decide, by decide⟩⟩

end Sys2Proof.Tests
end

section
/-! SUPPORT. What an instruction, a STEP, a command and a run can change, each said once (10_state.md), and the statements
of that family. -/

namespace Sys2Proof.Machine

variable {s t u : State} {i : Instr}

/-! ### What an instruction can change (R23 to R33) -/

/-- The next states an instruction may answer from `s`, by the group of elements it writes: the elements that stand in no
update of a case keep their values. The register file `v` differs from that of `s` in the registers of R23 only, memory in
the bytes of R71 only, and memory stays in canonical form (R60). -/
inductive ExecEffect (s : State) : Instr → State → Prop
  | registers (i : Instr) (v : Vector Byte 16) (pc : Word) (hv : SameRegsBut (writesReg i) s { s with v := v }) :
      ExecEffect s i { s with v := v, pc := pc }
  | draw (x : Reg) (nn : Byte) (v : Vector Byte 16) (pc : Word) (rnd : Option Byte) (draws : Nat)
      (hv : SameRegsBut (writesReg (.rnd x nn)) s { s with v := v }) :
      ExecEffect s (.rnd x nn) { s with v := v, pc := pc, rnd := rnd, draws := draws }
  | memory (i : Instr) (mem : Memory) (pc : Word) (hm : SameMemoryOutside (s.storesTo i) s { s with mem := mem })
      (hwf : s.mem.wf s.font → mem.wf s.font) :
      ExecEffect s i { s with mem := mem, pc := pc }
  | index (i : Instr) (hi : (∃ nnn, i = .ldI nnn) ∨ (∃ x, i = .addIVx x) ∨ ∃ x, i = .ldFVx x) (w pc : Word) :
      ExecEffect s i { s with i := w, pc := pc }
  | stack (i : Instr) (hi : i = .ret ∨ ∃ nnn, i = .call nnn) (stack : Vector Word 16) (sp : Fin 17) (pc : Word) :
      ExecEffect s i { s with stack := stack, sp := sp, pc := pc }
  | underflow (hsp : s.sp = 0) : ExecEffect s .ret (s.raise .stackUnderflow 0x00EE)
  | overflow (nnn : Addr) (hsp : s.sp = 16) :
      ExecEffect s (.call nnn) (s.raise .stackOverflow (encode (.call nnn)))
  | delayTimer (x : Reg) (dt : Byte) (pc : Word) : ExecEffect s (.ldDTVx x) { s with dt := dt, pc := pc }
  | soundTimer (x : Reg) (st : Byte) (pc : Word) : ExecEffect s (.ldSTVx x) { s with st := st, pc := pc }
  | display (i : Instr) (hi : i = .cls ∨ ∃ x y n, i = .drw x y n) (fb : Framebuffer) (v : Vector Byte 16) (pc : Word)
      (hv : SameRegsBut (writesReg i) s { s with v := v }) :
      ExecEffect s i { s with fb := fb, redraw := true, v := v, pc := pc }
  | keyWait (x : Reg) : ExecEffect s (.ldVxK x) { s with kstate := .awaitingKey, ktarget := x }

/-- A write to a register that R23 names for the instruction leaves the others alone. -/
theorem sameRegsBut_setV {x : Reg} (hx : writesReg i x) (b : Byte) : SameRegsBut (writesReg i) s (s.setV x b) :=
  fun r hr => State.getV_setV_ne s b fun e : r = x => hr (e ▸ hx)

theorem SameRegsBut.trans {written : Reg → Prop} (hst : SameRegsBut written s t) (htu : SameRegsBut written t u) :
    SameRegsBut written s u :=
  fun r hr => (htu r hr).trans (hst r hr)

theorem ExecEffect.jump (a : Word) : ExecEffect s i (s.jump a) := .registers i s.v a fun _ _ => rfl

theorem ExecEffect.skipIf (c : Bool) : ExecEffect s i (s.skipIf c) := .registers i s.v _ fun _ _ => rfl

theorem ExecEffect.setV {x : Reg} {b : Byte} (hx : writesReg i x) : ExecEffect s i (s.setV x b).advance :=
  .registers i _ _ (sameRegsBut_setV hx b)

theorem ExecEffect.flagThenResult {x : Reg} {f : Bool} {b : Byte} (hf : writesReg i VF) (hx : writesReg i x) :
    ExecEffect s i (s.writeFlagThenResult f x b).advance :=
  .registers i _ _ ((sameRegsBut_setV hf (flagByte f)).trans (sameRegsBut_setV hx b))

theorem ExecEffect.rnd (x : Reg) (nn b : Byte) : ExecEffect s (.rnd x nn) (s.consumeDraw.setV x b).advance := by
  unfold State.consumeDraw
  split
  · exact .draw x nn _ _ none s.draws (sameRegsBut_setV (i := .rnd x nn) rfl b)
  · exact .draw x nn _ _ s.rnd (s.draws + 1) (sameRegsBut_setV (i := .rnd x nn) rfl b)

theorem ExecEffect.ldBVx (x : Reg) (h t u : Byte) : ExecEffect s (.ldBVx x)
    (((s.memWrite (s.effAddr 0) h).memWrite (s.effAddr 1) t).memWrite (s.effAddr 2) u).advance := by
  refine .memory _ _ _ (fun a ha => ?_) fun hwf => ?_
  · have hne (k : Nat) (hk : k < 3) : reduceAddr a ≠ reduceAddr (s.effAddr k) := fun e => ha ⟨k, hk, e⟩
    exact (State.memRead_memWrite_ne _ u (hne 2 (by omega))).trans
      ((State.memRead_memWrite_ne _ t (hne 1 (by omega))).trans (State.memRead_memWrite_ne _ h (hne 0 (by omega))))
  · exact State.memWrite_mem_wf (State.memWrite_mem_wf (State.memWrite_mem_wf hwf _ h) _ t) _ u

theorem ExecEffect.storeRegs (x : Reg) : ExecEffect s (.storeRegs x) (s.storeList (regsUpTo x)).advance := by
  have hm : SameMemoryOutside (s.storesTo (.storeRegs x)) s (s.storeList (regsUpTo x)) := fun a ha =>
    State.storeList_memRead_other s _ a fun k hk e => ha ⟨k, mem_regsUpTo.mp hk, e⟩
  have hwf := State.storeList_mem_wf s (ks := regsUpTo x)
  rw [State.storeList_eq] at hm hwf ⊢
  exact .memory _ _ _ hm hwf

theorem ExecEffect.loadRegs (x : Reg) : ExecEffect s (.loadRegs x) (s.loadList (regsUpTo x)).advance := by
  have hv : SameRegsBut (writesReg (.loadRegs x)) s (s.loadList (regsUpTo x)) := fun r hr => by
    rw [State.loadList_getV, if_neg (mt mem_regsUpTo.mp hr)]
  rw [State.loadList_eq] at hv ⊢
  exact .registers _ _ _ hv

theorem exec_ret_effect (s : State) : ∃ t, exec .ret s = .next t ∧ ExecEffect s .ret t := by
  by_cases h : s.sp = 0
  · exact ⟨_, exec_ret_empty s h, .underflow h⟩
  · have hpos : 0 < s.sp.val := Fin.pos_iff_ne_zero.mpr h
    exact ⟨_, exec_ret_ok s hpos, .stack _ (.inl rfl) _ _ _⟩

theorem exec_call_effect (s : State) (nnn : Addr) :
    ∃ t, exec (.call nnn) s = .next t ∧ ExecEffect s (.call nnn) t := by
  by_cases h : s.sp.val < 16
  · exact ⟨_, exec_call_ok s nnn h, .stack _ (.inr ⟨nnn, rfl⟩) _ _ _⟩
  · have hfull : s.sp = 16 := Fin.eq_of_val_eq (by have := s.sp.isLt; show s.sp.val = 16; omega)
    exact ⟨_, exec_call_full s nnn hfull, .overflow nnn hfull⟩

/-- Every instruction answers a next state (R345), and writes one group of elements only. -/
theorem exec_next_effect (i : Instr) (s : State) : ∃ t, exec i s = .next t ∧ ExecEffect s i t := by
  cases i with
  | cls => exact ⟨_, exec_cls s, .display _ (.inl rfl) _ _ _ fun _ _ => rfl⟩
  | drw x y n =>
    exact ⟨_, exec_drw s x y n, .display _ (.inr ⟨x, y, n, rfl⟩) _ _ _ (sameRegsBut_setV (i := .drw x y n) rfl _)⟩
  | ret => exact exec_ret_effect s
  | call nnn => exact exec_call_effect s nnn
  | jp nnn => exact ⟨_, exec_jp s nnn, .jump _⟩
  | jpV0 nnn => exact ⟨_, exec_jpV0 s nnn, .jump _⟩
  | seByte x nn => exact ⟨_, exec_seByte s x nn, .skipIf _⟩
  | sneByte x nn => exact ⟨_, exec_sneByte s x nn, .skipIf _⟩
  | seReg x y d => exact ⟨_, exec_seReg s x y d, .skipIf _⟩
  | sneReg x y d => exact ⟨_, exec_sneReg s x y d, .skipIf _⟩
  | skp x => exact ⟨_, exec_skp s x, .skipIf _⟩
  | sknp x => exact ⟨_, exec_sknp s x, .skipIf _⟩
  | ldByte x nn => exact ⟨_, exec_ldByte s x nn, .setV rfl⟩
  | addByte x nn => exact ⟨_, exec_addByte s x nn, .setV rfl⟩
  | ldReg x y => exact ⟨_, exec_ldReg s x y, .setV rfl⟩
  | orReg x y => exact ⟨_, exec_orReg s x y, .setV rfl⟩
  | andReg x y => exact ⟨_, exec_andReg s x y, .setV rfl⟩
  | xorReg x y => exact ⟨_, exec_xorReg s x y, .setV rfl⟩
  | ldVxDT x => exact ⟨_, exec_ldVxDT s x, .setV rfl⟩
  | addReg x y => exact ⟨_, exec_addReg s x y, .flagThenResult (.inr rfl) (.inl rfl)⟩
  | subReg x y => exact ⟨_, exec_subReg s x y, .flagThenResult (.inr rfl) (.inl rfl)⟩
  | shr x y => exact ⟨_, exec_shr s x y, .flagThenResult (.inr rfl) (.inl rfl)⟩
  | subnReg x y => exact ⟨_, exec_subnReg s x y, .flagThenResult (.inr rfl) (.inl rfl)⟩
  | shl x y => exact ⟨_, exec_shl s x y, .flagThenResult (.inr rfl) (.inl rfl)⟩
  | rnd x nn => exact ⟨_, exec_rnd s x nn, .rnd x nn _⟩
  | ldI nnn => exact ⟨_, exec_ldI s nnn, .index _ (.inl ⟨nnn, rfl⟩) _ _⟩
  | addIVx x => exact ⟨_, exec_addIVx s x, .index _ (.inr (.inl ⟨x, rfl⟩)) _ _⟩
  | ldFVx x => exact ⟨_, exec_ldFVx s x, .index _ (.inr (.inr ⟨x, rfl⟩)) _ _⟩
  | ldBVx x => exact ⟨_, exec_ldBVx s x, .ldBVx x _ _ _⟩
  | storeRegs x => exact ⟨_, exec_storeRegs s x, .storeRegs x⟩
  | loadRegs x => exact ⟨_, exec_loadRegs s x, .loadRegs x⟩
  | ldVxK x => exact ⟨_, exec_ldVxK s x, .keyWait x⟩
  | ldDTVx x => exact ⟨_, exec_ldDTVx s x, .delayTimer x _ _⟩
  | ldSTVx x => exact ⟨_, exec_ldSTVx s x, .soundTimer x _ _⟩

/-- All that an instruction can do. -/
theorem exec_effect (h : exec i s = .next t) : ExecEffect s i t := by
  obtain ⟨t', ht', he⟩ := exec_next_effect i s
  rw [h] at ht'
  cases ht'
  exact he

/-- Settles O53: each group of elements but the registers and the display leaves the register file alone. -/
theorem onlyNamedRegistersAreWritten : Obligations.OnlyNamedRegistersAreWritten := by
  intro i s t h
  cases exec_effect h with
  | registers _ _ _ hv => exact hv
  | draw _ _ _ _ _ _ hv => exact hv
  | display _ _ _ _ _ hv => exact hv
  | memory | index | stack | underflow | overflow | delayTimer | soundTimer | keyWait => exact fun _ _ => rfl

/-- Settles O55: an instruction writes one group of elements, and each group is written by its own instructions. -/
theorem stateElementsHaveOnlyTheirWriters : Obligations.StateElementsHaveOnlyTheirWriters := by
  intro i s t h
  unfold SameStack SameDisplay
  cases exec_effect h with
  | registers | draw | memory => simp
  | index _ hi => exact ⟨.inr hi, by simp⟩
  | stack _ hi => exact ⟨.inl rfl, .inr hi, by simp⟩
  | underflow | overflow => simp
  | delayTimer x => exact ⟨.inl rfl, .inl ⟨rfl, rfl⟩, .inr ⟨x, rfl⟩, by simp⟩
  | soundTimer x => exact ⟨.inl rfl, .inl ⟨rfl, rfl⟩, .inl rfl, .inr ⟨x, rfl⟩, by simp⟩
  | display _ hi => exact ⟨.inl rfl, .inl ⟨rfl, rfl⟩, .inl rfl, .inl rfl, .inr hi, by simp⟩
  | keyWait x => exact ⟨.inl rfl, .inl ⟨rfl, rfl⟩, .inl rfl, .inl rfl, .inl ⟨rfl, rfl⟩, rfl, .inr ⟨x, rfl⟩, rfl, rfl⟩

/-! ### What a command can change (R40, R41) -/

/-- All that a `STEP` can do: nothing, one instruction, or the fault of an unknown word; then its byte is gone. -/
theorem State.stepWith_inv {r : Option Byte} (h : s.stepWith r = .next t) :
    t = s.dropSample ∨ (∃ i u, exec i (s.sample r) = .next u ∧ t = u.dropSample) ∨
      t = (s.raise .unknownOpcode s.fetchWord).dropSample := by
  obtain ⟨u, hu, rfl⟩ := State.stepWith_eq_next h
  obtain rfl | ⟨-, -, ⟨i, -, hi⟩ | ⟨_, -, rfl⟩⟩ := State.stepCore_inv hu
  · exact .inl rfl
  · exact .inr (.inl ⟨i, u, hi, rfl⟩)
  · exact .inr (.inr rfl)

/-- A `LOAD` writes memory and the fault record only. -/
theorem State.load_eq (s : State) (bytes : List Byte) :
    s.load bytes = { s with mem := (s.load bytes).mem, fault := (s.load bytes).fault,
                            faultWord := (s.load bytes).faultWord } := by
  obtain ⟨-, e⟩ | ⟨-, -, e⟩ | ⟨-, -, e⟩ := s.load_cases bytes
  · rw [e]
  · rw [e]; rfl
  · rw [e]

/-- A key event writes the key array, and the registers, pc and the key-input machine where it ends a wait. -/
theorem State.keyEvent_eq (s : State) (k : KeyIndex) (p : Bool) :
    s.keyEvent k p = { s with v := (s.keyEvent k p).v, pc := (s.keyEvent k p).pc, key := (s.keyEvent k p).key,
                              kstate := (s.keyEvent k p).kstate } := by
  obtain ⟨-, -, -, e⟩ | ⟨-, e⟩ := s.keyEvent_cases k p <;> (rw [e]; rfl)

/-- A `STEP` leaves the commands that wait and FONT alone, and its byte is gone (R20). -/
theorem State.stepWith_inputs {r : Option Byte} (h : s.stepWith r = .next t) :
    t.pending = s.pending ∧ t.font = s.font ∧ t.rnd = none := by
  obtain rfl | ⟨i, u, hu, rfl⟩ | rfl := State.stepWith_inv h
  · exact ⟨rfl, rfl, rfl⟩
  · obtain ⟨-, -, -, -, -, -, -, hpending, hfont⟩ := stateElementsHaveOnlyTheirWriters i _ u hu
    exact ⟨hpending, hfont, rfl⟩
  · exact ⟨rfl, rfl, rfl⟩

/-- No command changes the commands that wait (log 3) or FONT (log 1), and none leaves a sampled byte (log 2). -/
theorem perform_inputs {c : Command} (h : perform c s = .next t) :
    t.pending = s.pending ∧ t.font = s.font ∧ (s.rnd = none → t.rnd = none) := by
  cases c with
  | step r =>
    obtain ⟨hpending, hfont, hrnd⟩ := State.stepWith_inputs h
    exact ⟨hpending, hfont, fun _ => hrnd⟩
  | reset => cases h; exact ⟨rfl, rfl, fun _ => rfl⟩
  | load bytes => cases h; rw [State.load_eq]; exact ⟨rfl, rfl, id⟩
  | tick => cases h; exact ⟨rfl, rfl, id⟩
  | key k p => cases h; rw [State.keyEvent_eq]; exact ⟨rfl, rfl, id⟩
  | clearRedraw => cases h; exact ⟨rfl, rfl, id⟩

/-- The two cases of a step of the machine: `STEP` with a free draw, or the oldest command that waits (log 3). -/
theorem step_inv (h : step s = .next t) :
    (s.pending = [] ∧ s.stepWith none = .next t) ∨
    ∃ c rest, s.pending = c :: rest ∧ perform c { s with pending := rest, rnd := none } = .next t := by
  cases hp : s.pending with
  | nil => rw [step_of_nil s hp] at h; exact .inl ⟨rfl, h⟩
  | cons c rest => rw [step_of_cons s hp] at h; exact .inr ⟨c, rest, rfl, h⟩

/-- A step takes the oldest command from those that wait and keeps FONT, and no sampled byte is left. -/
theorem step_inputs (h : step s = .next t) : t.pending = s.pending.tail ∧ t.font = s.font ∧ t.rnd = none := by
  obtain ⟨hp, h⟩ | ⟨c, rest, hp, h⟩ := step_inv h
  · obtain ⟨hpending, hfont, hrnd⟩ := State.stepWith_inputs h
    exact ⟨by rw [hpending, hp]; rfl, hfont, hrnd⟩
  · obtain ⟨hpending, hfont, hrnd⟩ := perform_inputs h
    exact ⟨by rw [hpending, hp]; rfl, hfont, hrnd rfl⟩

/-- A step does not look at the byte at the random input before it (log 2). -/
theorem step_sample (s : State) (r : Option Byte) : step (s.sample r) = step s := by
  cases hp : s.pending with
  | nil => rw [step_of_nil s hp, step_of_nil (s.sample r) hp, State.stepWith_sample]
  | cons c rest => rw [step_of_cons s hp, step_of_cons (s.sample r) hp]; rfl

/-- Settles O10, by the two cases of the list of commands that wait. -/
theorem stepIssuesTheNextHostCommand : Obligations.StepIssuesTheNextHostCommand :=
  fun s => ⟨step_of_nil s, fun _ _ => step_of_cons s⟩

/-- Settles O56: the byte before a step is overwritten or dropped before anything reads it, and every command ends without
one. -/
theorem noSampledByteSurvivesACommand : Obligations.NoSampledByteSurvivesACommand := by
  refine ⟨step_sample, fun s r r' => s.stepWith_sample r r', fun s t h => ?_, fun r s t h => ?_⟩
  · obtain ⟨-, hfont, hrnd⟩ := step_inputs h
    exact ⟨hrnd, hfont⟩
  · obtain ⟨-, hfont, hrnd⟩ := State.stepWith_inputs h
    exact ⟨hrnd, hfont⟩

/-! ### The redraw flag (R30, R145) -/

/-- A flag that is clear in `t` says that it was clear in `s` and that the display of `s` still stands (R145). -/
def RedrawCovers (s t : State) : Prop := t.redraw = false → s.redraw = false ∧ t.fb = s.fb

theorem RedrawCovers.of_sameDisplay (h : SameDisplay s t) : RedrawCovers s t :=
  fun ht => ⟨h.2 ▸ ht, h.1⟩

theorem RedrawCovers.trans (hst : RedrawCovers s t) (htu : RedrawCovers t u) : RedrawCovers s u := fun hu => by
  obtain ⟨ht, hfb⟩ := htu hu
  obtain ⟨hs, hfb'⟩ := hst ht
  exact ⟨hs, hfb.trans hfb'⟩

/-- The instructions that write the display set the flag (R130, R131). -/
theorem exec_redrawCovers (h : exec i s = .next t) : RedrawCovers s t := by
  cases exec_effect h with
  | display => intro hclear; cases hclear
  | registers | draw | memory | index | stack | underflow | overflow | delayTimer | soundTimer | keyWait =>
    exact .of_sameDisplay ⟨rfl, rfl⟩

theorem State.stepWith_redrawCovers {r : Option Byte} (h : s.stepWith r = .next t) : RedrawCovers s t := by
  obtain rfl | ⟨i, u, hu, rfl⟩ | rfl := State.stepWith_inv h
  · exact .of_sameDisplay ⟨rfl, rfl⟩
  · have hcovers : RedrawCovers (s.sample r) u := exec_redrawCovers hu
    exact hcovers
  · exact .of_sameDisplay ⟨rfl, rfl⟩

/-- Only RESET (R46) and CLEAR_REDRAW (R144) clear the flag. -/
theorem perform_redrawCovers {c : Command} (hc : c ≠ .reset ∧ c ≠ .clearRedraw) (h : perform c s = .next t) :
    RedrawCovers s t := by
  cases c with
  | step r => exact State.stepWith_redrawCovers h
  | load bytes => cases h; rw [State.load_eq]; exact .of_sameDisplay ⟨rfl, rfl⟩
  | tick => cases h; exact .of_sameDisplay ⟨rfl, rfl⟩
  | key k p => cases h; rw [State.keyEvent_eq]; exact .of_sameDisplay ⟨rfl, rfl⟩
  | reset => exact absurd rfl hc.1
  | clearRedraw => exact absurd rfl hc.2

theorem step_redrawCovers (hs : ∀ c ∈ s.pending, c ≠ .reset ∧ c ≠ .clearRedraw) (h : step s = .next t) :
    RedrawCovers s t := by
  obtain ⟨-, h⟩ | ⟨c, rest, hp, h⟩ := step_inv h
  · exact State.stepWith_redrawCovers h
  · exact perform_redrawCovers (s := { s with pending := rest, rnd := none }) (hs c (by simp [hp])) h

/-- A run of `k + 1` steps that answers a next state takes one step and then a run of `k`, of any machine. -/
theorem run_succ_eq_next {M : Host.Core} {k : Nat} {a b : M.State} (h : M.run (k + 1) a = .next b) :
    ∃ c, M.step a = .next c ∧ M.run k c = .next b := by
  rw [Host.Core.run] at h
  split at h
  · next c hc => exact ⟨c, hc, h⟩
  · cases h
  · cases h

/-- Settles O59, by induction on the number of steps: each step covers its own change of the display, and the commands that
wait after it are among those that waited before. -/
theorem redrawFlagCoversEveryDisplayChange : Obligations.RedrawFlagCoversEveryDisplayChange := by
  intro k
  induction k with
  | zero =>
    intro s t _ h
    cases h
    exact RedrawCovers.of_sameDisplay ⟨rfl, rfl⟩
  | succ k ih =>
    intro s t hs h
    obtain ⟨u, hstep, hrun⟩ := run_succ_eq_next h
    obtain ⟨hpending, -, -⟩ := step_inputs hstep
    have hu : ∀ c ∈ State.pending u, c ≠ .reset ∧ c ≠ .clearRedraw := fun c hc =>
      hs c (List.mem_of_mem_tail (hpending ▸ hc))
    exact (step_redrawCovers hs hstep).trans (ih u t hu hrun)

/-! ### The layout of the display (R29) and the state after reset (R46) -/

/-- Settles O16, by `fbBit_flat`. -/
theorem flatIndexNamesThePixel : Obligations.FlatIndexNamesThePixel := by
  intro fb px py j hj
  rw [show j = ⟨py.val * 64 + px.val, by omega⟩ from Fin.eq_of_val_eq hj]
  exact fbBit_flat fb px py

/-- Settles O57: memory lists no byte, no fault is recorded and no key is awaited. -/
theorem resetMeetsTheInvariant : Obligations.ResetMeetsTheInvariant where
  mem_wf := reset_mem_wf
  none_word _ := rfl
  rom_word h := by cases h
  unknown_word h := by cases h
  overflow_word h := by cases h
  underflow_word h := by cases h
  awaiting_fault _ := .inl rfl
  no_sample := rfl

end Sys2Proof.Machine
end

section
/-! SUPPORT. Memory: the bytes an instruction stores, the fetch of stored code, and the invariant that every step keeps
(20_memory.md), with the statements of that family. -/

namespace Sys2Proof.Machine

variable {s t : State} {i : Instr}

/-! ### What is stored (R71) and what the next fetch sees (R75) -/

/-- Settles O54: of the groups of elements an instruction can write, one is memory, and it is written inside R71's bytes. -/
theorem onlyNamedBytesAreStored : Obligations.OnlyNamedBytesAreStored := by
  intro i s t h
  cases exec_effect h with
  | memory _ _ _ hm => exact hm
  | registers | draw | index | stack | underflow | overflow | delayTimer | soundTimer | display | keyWait =>
    exact fun _ _ => rfl

/-- The effective addresses of two offsets in a row follow each other (R226), also where the sum wraps (R9). -/
theorem State.effAddr_succ (s : State) (k : Nat) : s.effAddr (k + 1) = s.effAddr k + 1 := by
  unfold State.effAddr
  rw [BitVec.ofNat_add, BitVec.add_assoc]
  rfl

/-- After Fx55 the byte at `I + k` is Vk, for every k up to x (R224). -/
theorem exec_storeRegs_memRead {x k : Reg} (h : exec (.storeRegs x) s = .next t) (hk : k ≤ x) :
    t.memRead (s.effAddr k.val) = s.getV k := by
  rw [exec_storeRegs] at h
  cases h
  rw [State.advance_memRead]
  exact State.storeList_memRead_stored s (regsUpTo_nodup x) (mem_regsUpTo.mpr hk)

/-- Settles O35: the two bytes of the fetch are two bytes in a row of the block that Fx55 stored. -/
theorem nextFetchSeesTheStoredCode : Obligations.NextFetchSeesTheStoredCode := by
  intro x k k' s t hk' hle h hpc
  have hnext : s.effAddr k'.val = t.pc + 1 := by rw [hk', State.effAddr_succ, hpc]
  have hhi : t.memRead t.pc = s.getV k :=
    hpc ▸ exec_storeRegs_memRead h (le_trans (Fin.le_def.mpr (by omega)) hle)
  have hlo : t.memRead (t.pc + 1) = s.getV k' := hnext ▸ exec_storeRegs_memRead h hle
  rw [State.fetchWord, hhi, hlo]
  rfl

/-! ### The fault records that are allowed (R33, R290 to R294) -/

/-- The fault kinds and words that may be recorded together where the stack holds `sp` entries. -/
def AllowedRecord (sp : Fin 17) : FaultKind → Word → Prop
  | .none, w | .romTooLarge, w => w = 0x0000
  | .unknownOpcode, w => ∃ e, decode w = .error e
  | .stackOverflow, w => sp = 16 ∧ ∃ nnn, decode w = .ok (.call nnn)
  | .stackUnderflow, w => sp = 0 ∧ decode w = .ok .ret

/-- The word a call records is one that decodes to it (log 9). -/
theorem decode_encode_call (nnn : Addr) : decode (encode (.call nnn)) = .ok (.call nnn) := by
  simp [encode, decode]

/-- A state with no fault meets the invariant by its memory, its cleared fault word and its random input. -/
theorem State.Inv.of_no_fault (hmem : s.mem.wf s.font) (hf : s.fault = .none) (hw : s.faultWord = 0x0000)
    (hrnd : s.rnd = none) : s.Inv where
  mem_wf := hmem
  none_word _ := hw
  rom_word h := by simp [hf] at h
  unknown_word h := by simp [hf] at h
  overflow_word h := by simp [hf] at h
  underflow_word h := by simp [hf] at h
  awaiting_fault _ := .inl hf
  no_sample := hrnd

/-- Raising an allowed fault keeps the invariant, where no key is awaited or the fault is that of a LOAD (R333). -/
theorem State.Inv.raise (hs : s.Inv) {kind : FaultKind} {w : Word} (hrec : AllowedRecord s.sp kind w)
    (hk : s.kstate = .running ∨ kind = .romTooLarge) : (s.raise kind w).Inv where
  mem_wf := hs.mem_wf
  none_word h := by cases h; exact hrec
  rom_word h := by cases h; exact hrec
  unknown_word h := by cases h; exact hrec
  overflow_word h := by cases h; exact hrec
  underflow_word h := by cases h; exact hrec
  awaiting_fault h := by
    obtain hr | hrom := hk
    · exact absurd (hr.symm.trans h) (by decide)
    · exact .inr hrom
  no_sample := hs.no_sample

/-! ### Every step keeps the invariant

While a STEP runs it holds the byte it sampled, so the invariant is said of `dropSample`, the state as that STEP ends (log 2). -/

/-- An instruction that a STEP runs keeps the invariant. -/
theorem exec_keeps_inv (hs : s.dropSample.Inv) (hf : s.fault = .none) (hk : s.kstate = .running)
    (h : exec i s = .next t) : t.dropSample.Inv := by
  have hw : s.faultWord = 0x0000 := hs.none_word hf
  cases exec_effect h with
  | registers | draw | index | stack | delayTimer | soundTimer | display | keyWait =>
    exact .of_no_fault hs.mem_wf hf hw rfl
  | memory _ _ _ _ hwf => exact .of_no_fault (hwf hs.mem_wf) hf hw rfl
  | underflow hsp => exact hs.raise (kind := .stackUnderflow) (w := 0x00EE) ⟨hsp, rfl⟩ (.inl hk)
  | overflow nnn hsp => exact hs.raise (kind := .stackOverflow) ⟨hsp, nnn, decode_encode_call nnn⟩ (.inl hk)

/-- `STEP` keeps the invariant, whatever byte was at the random input before it. -/
theorem State.stepWith_keeps_inv {r : Option Byte} (hs : s.Inv) (h : s.stepWith r = .next t) : t.Inv := by
  have hdrop : (s.sample r).dropSample.Inv := { hs with no_sample := rfl }
  obtain ⟨u, hu, rfl⟩ := State.stepWith_eq_next h
  obtain rfl | ⟨hf, hk, ⟨i, -, hi⟩ | ⟨e, he, rfl⟩⟩ := State.stepCore_inv hu
  · exact hdrop
  · exact exec_keeps_inv hdrop hf hk hi
  · exact hdrop.raise (kind := .unknownOpcode) ⟨e, he⟩ (.inl hk)

/-- `RESET` reaches the invariant from any state (R330). -/
theorem State.resetCore_inv (s : State) : s.resetCore.Inv :=
  .of_no_fault ⟨List.Pairwise.nil, fun _ hc => by cases hc⟩ rfl rfl rfl

/-- `LOAD` keeps the invariant: the largest image ends at the last of the 4096 bytes, and a larger one is a fault (R332,
R333). -/
theorem State.Inv.load (hs : s.Inv) (bytes : List Byte) : (s.load bytes).Inv := by
  obtain ⟨-, e⟩ | ⟨-, -, e⟩ | ⟨hf, hlen, e⟩ := s.load_cases bytes <;> rw [e]
  · exact hs
  · exact hs.raise rfl (.inr rfl)
  · have hfits : Config.romBase + bytes.length ≤ Config.memSize := Nat.add_le_add_left hlen Config.romBase
    exact .of_no_fault (Memory.writeAll_wf hs.mem_wf hfits) hf (hs.none_word hf) hs.no_sample

/-- `KEY` keeps the invariant: a press is accepted only while no fault is recorded (R297; log 6). -/
theorem State.Inv.keyEvent (hs : s.Inv) (k : KeyIndex) (p : Bool) : (s.keyEvent k p).Inv := by
  obtain ⟨-, -, hf, e⟩ | ⟨-, e⟩ := s.keyEvent_cases k p <;> rw [e]
  · exact .of_no_fault hs.mem_wf hf (hs.none_word hf) hs.no_sample
  · exact { hs with }

/-- Every command keeps the invariant. -/
theorem perform_keeps_inv {c : Command} (hs : s.Inv) (h : perform c s = .next t) : t.Inv := by
  cases c with
  | step r => exact State.stepWith_keeps_inv hs h
  | reset => cases h; exact s.resetCore_inv
  | load bytes => cases h; exact hs.load bytes
  | tick => cases h; exact { hs with }
  | key k p => cases h; exact hs.keyEvent k p
  | clearRedraw => cases h; exact { hs with }

/-- Settles O58: a step is a STEP, or the oldest command from a state that differs in the inputs only. -/
theorem everyStepKeepsTheInvariant : Obligations.EveryStepKeepsTheInvariant := by
  intro s t hs h
  obtain ⟨-, h⟩ | ⟨c, rest, -, h⟩ := step_inv h
  · exact State.stepWith_keeps_inv hs h
  · have hissued : State.Inv { s with pending := rest, rnd := none } := { hs with no_sample := rfl }
    exact perform_keeps_inv hissued h

end Sys2Proof.Machine
end

section
/-! SUPPORT. The encoding, the cycle of `STEP` and the random input (30_encoding.md), with the statements of that
family. -/

namespace Sys2Proof.Machine

variable {w : Word} {s t : State} {i : Instr}

/-! ### The decoder undoes the encoder (R93 to R95) -/

/-- The decoder gives every instruction back from its word: the fields of its format are its operands, and the group and
sub-selector of R95 are those of its row. -/
theorem decode_encode (i : Instr) : decode (encode i) = .ok i := by
  cases i with
  | cls | ret => rfl
  | jp | call | ldI | jpV0 | seByte | sneByte | ldByte | addByte | rnd | seReg | sneReg | drw => simp [encode, decode]
  | ldReg | orReg | andReg | xorReg | addReg | subReg | shr | subnReg | shl => simp [encode, decode, decodeGroup8]
  | skp | sknp => simp [encode, decode, decodeGroupE]
  | ldVxDT | ldVxK | ldDTVx | ldSTVx | addIVx | ldFVx | ldBVx | storeRegs | loadRegs =>
    simp [encode, decode, decodeGroupF]

/-- Two instructions with one word are one instruction. -/
theorem encode_injective : Function.Injective encode := fun i j h =>
  Except.ok.inj ((decode_encode i).symm.trans ((congrArg decode h).trans (decode_encode j)))

/-- Settles O1, by `decode_encode`. -/
theorem decodeOfEncodeIsTheInstruction : Obligations.DecodeOfEncodeIsTheInstruction := decode_encode

/-- Settles O5: each word is the encoding of its instruction. -/
theorem writtenOutWordsDecode : Obligations.WrittenOutWordsDecode :=
  ⟨decode_encode .cls, decode_encode .ret, decode_encode (.call 0x401), decode_encode (.seByte 1 0x22),
    decode_encode (.seReg 1 2 1), decode_encode (.subReg 2 15), decode_encode (.drw 14 1 5), decode_encode (.sknp 6),
    decode_encode (.ldVxK 10), decode_encode (.loadRegs 3)⟩

/-! ### A word from the fields that select its row -/

theorem formatA_of_op {o : BitVec 4} (ho : (fieldOp w).toNat = o.toNat) : formatA o (fieldNNN w) = w :=
  BitVec.eq_of_toNat_eq ho ▸ formatA_fields w

theorem formatXK_of_op {o : BitVec 4} (ho : (fieldOp w).toNat = o.toNat) : formatXK o (fieldX w) (fieldNN w) = w :=
  BitVec.eq_of_toNat_eq ho ▸ formatXK_fields w

theorem formatXY_of_op {o : BitVec 4} (ho : (fieldOp w).toNat = o.toNat) :
    formatXY o (fieldX w) (fieldY w) (fieldN w) = w :=
  BitVec.eq_of_toNat_eq ho ▸ formatXY_fields w

theorem formatXK_of_op_nn {o : BitVec 4} {nn : Byte} (ho : (fieldOp w).toNat = o.toNat) (hnn : fieldNN w = nn) :
    formatXK o (fieldX w) nn = w :=
  hnn ▸ formatXK_of_op ho

theorem formatXY_of_op_n {o n : BitVec 4} (ho : (fieldOp w).toNat = o.toNat) (hn : (fieldN w).toNat = n.toNat) :
    formatXY o (fieldX w) (fieldY w) n = w :=
  BitVec.eq_of_toNat_eq hn ▸ formatXY_of_op ho

/-! ### What the decoder can answer (R95, R97) -/

/-- The two answers a decoder may give on a word: an instruction that the word encodes, or the error that names the word. -/
inductive DecodeAnswer (w : Word) : Except DecodeError Instr → Prop
  | ok (i : Instr) (h : encode i = w) : DecodeAnswer w (.ok i)
  | unknown : DecodeAnswer w (.error (.unknownOpcode w))

theorem decodeGroup0_answer (w : Word) : DecodeAnswer w (decodeGroup0 w) := by
  unfold decodeGroup0
  split
  · next h => exact .ok _ h.symm
  split
  · next h => exact .ok _ h.symm
  · exact .unknown

theorem decodeGroup8_answer (ho : (fieldOp w).toNat = 0x8) : DecodeAnswer w (decodeGroup8 w) := by
  unfold decodeGroup8
  split
  case h_10 => exact .unknown
  all_goals next hn => exact .ok _ (formatXY_of_op_n ho hn)

theorem decodeGroupE_answer (ho : (fieldOp w).toNat = 0xE) : DecodeAnswer w (decodeGroupE w) := by
  unfold decodeGroupE
  split
  · next hnn => exact .ok _ (formatXK_of_op_nn ho hnn)
  split
  · next hnn => exact .ok _ (formatXK_of_op_nn ho hnn)
  · exact .unknown

theorem decodeGroupF_answer (ho : (fieldOp w).toNat = 0xF) : DecodeAnswer w (decodeGroupF w) := by
  unfold decodeGroupF
  repeat' split
  case isFalse => exact .unknown
  all_goals next hnn => exact .ok _ (formatXK_of_op_nn ho hnn)

/-- All that the decoder can answer. -/
theorem decode_answer (w : Word) : DecodeAnswer w (decode w) := by
  unfold decode
  split
  · exact decodeGroup0_answer w
  · next ho => exact .ok _ (formatA_of_op ho)
  · next ho => exact .ok _ (formatA_of_op ho)
  · next ho => exact .ok _ (formatXK_of_op ho)
  · next ho => exact .ok _ (formatXK_of_op ho)
  · next ho => exact .ok _ (formatXY_of_op ho)
  · next ho => exact .ok _ (formatXK_of_op ho)
  · next ho => exact .ok _ (formatXK_of_op ho)
  · next ho => exact decodeGroup8_answer ho
  · next ho => exact .ok _ (formatXY_of_op ho)
  · next ho => exact .ok _ (formatA_of_op ho)
  · next ho => exact .ok _ (formatA_of_op ho)
  · next ho => exact .ok _ (formatXK_of_op ho)
  · next ho => exact .ok _ (formatXY_of_op ho)
  · next ho => exact decodeGroupE_answer ho
  · next ho => exact decodeGroupF_answer ho
  · exact .unknown

/-- Settles O2: of the two answers of the decoder, an instruction is one that the word encodes. -/
theorem encodeOfDecodeIsTheWord : Obligations.EncodeOfDecodeIsTheWord := by
  intro w i h
  cases h ▸ decode_answer w with
  | ok _ hw => exact hw

/-- Settles O4: of the two answers of the decoder, an error is the one that names the word. -/
theorem unknownWordIsRejectedByName : Obligations.UnknownWordIsRejectedByName := by
  intro w e h
  cases h ▸ decode_answer w with
  | unknown => rfl

/-- A word decodes to an instruction exactly when the instruction encodes to it. -/
theorem decode_eq_ok_iff : decode w = .ok i ↔ encode i = w :=
  ⟨encodeOfDecodeIsTheWord w i, fun h => h ▸ decode_encode i⟩

/-! ### The opcode table (R94) -/

/-- The word of an instruction matches its row. -/
theorem encode_matches_row (i : Instr) : ∃ p, patternTable[i.row]? = some p ∧ matchesPattern (encode i) p = true :=
  match i with
  | .cls => Laws.RowMatch.cls
  | .ret => Laws.RowMatch.ret
  | .jp nnn => Laws.RowMatch.jp nnn
  | .call nnn => Laws.RowMatch.call nnn
  | .seByte x nn => Laws.RowMatch.seByte x nn
  | .sneByte x nn => Laws.RowMatch.sneByte x nn
  | .seReg x y d => Laws.RowMatch.seReg x y d
  | .ldByte x nn => Laws.RowMatch.ldByte x nn
  | .addByte x nn => Laws.RowMatch.addByte x nn
  | .ldReg x y => Laws.RowMatch.ldReg x y
  | .orReg x y => Laws.RowMatch.orReg x y
  | .andReg x y => Laws.RowMatch.andReg x y
  | .xorReg x y => Laws.RowMatch.xorReg x y
  | .addReg x y => Laws.RowMatch.addReg x y
  | .subReg x y => Laws.RowMatch.subReg x y
  | .shr x y => Laws.RowMatch.shr x y
  | .subnReg x y => Laws.RowMatch.subnReg x y
  | .shl x y => Laws.RowMatch.shl x y
  | .sneReg x y d => Laws.RowMatch.sneReg x y d
  | .ldI nnn => Laws.RowMatch.ldI nnn
  | .jpV0 nnn => Laws.RowMatch.jpV0 nnn
  | .rnd x nn => Laws.RowMatch.rnd x nn
  | .drw x y n => Laws.RowMatch.drw x y n
  | .skp x => Laws.RowMatch.skp x
  | .sknp x => Laws.RowMatch.sknp x
  | .ldVxDT x => Laws.RowMatch.ldVxDT x
  | .ldVxK x => Laws.RowMatch.ldVxK x
  | .ldDTVx x => Laws.RowMatch.ldDTVx x
  | .ldSTVx x => Laws.RowMatch.ldSTVx x
  | .addIVx x => Laws.RowMatch.addIVx x
  | .ldFVx x => Laws.RowMatch.ldFVx x
  | .ldBVx x => Laws.RowMatch.ldBVx x
  | .storeRegs x => Laws.RowMatch.storeRegs x
  | .loadRegs x => Laws.RowMatch.loadRegs x

/-- The mask 0xF000 shows `op`. -/
theorem fieldOp_of_maskA {o : BitVec 4} (h : w &&& 0xF000 = formatA o 0) : fieldOp w = o := by
  rw [← formatA_fields w, formatA_and_mask] at h
  simpa using congrArg fieldOp h

/-- The mask 0xF00F shows `op` and `n`. -/
theorem fieldOp_fieldN_of_maskXY {o n : BitVec 4} (h : w &&& 0xF00F = formatXY o 0 0 n) :
    fieldOp w = o ∧ fieldN w = n := by
  rw [← formatXY_fields w, formatXY_and_mask] at h
  exact ⟨by simpa using congrArg fieldOp h, by simpa using congrArg fieldN h⟩

/-- The mask 0xF0FF shows `op` and `nn`. -/
theorem fieldOp_fieldNN_of_maskXK {o : BitVec 4} {nn : Byte} (h : w &&& 0xF0FF = formatXK o 0 nn) :
    fieldOp w = o ∧ fieldNN w = nn := by
  rw [← formatXK_fields w, formatXK_and_mask] at h
  exact ⟨by simpa using congrArg fieldOp h, by simpa using congrArg fieldNN h⟩

/-- The mask 0xFFFF shows the whole word. -/
theorem eq_of_mask_all {m : Word} (h : w &&& 0xFFFF = m) : m = w :=
  h.symm.trans BitVec.and_allOnes

theorem formatA_of_maskA {o : BitVec 4} (h : w &&& 0xF000 = formatA o 0) : formatA o (fieldNNN w) = w :=
  formatA_of_op (congrArg _ (fieldOp_of_maskA h))

theorem formatXK_of_maskA {o : BitVec 4} (h : w &&& 0xF000 = formatA o 0) :
    formatXK o (fieldX w) (fieldNN w) = w :=
  formatXK_of_op (congrArg _ (fieldOp_of_maskA h))

theorem formatXY_of_maskA {o : BitVec 4} (h : w &&& 0xF000 = formatA o 0) :
    formatXY o (fieldX w) (fieldY w) (fieldN w) = w :=
  formatXY_of_op (congrArg _ (fieldOp_of_maskA h))

theorem formatXY_of_maskXY {o n : BitVec 4} (h : w &&& 0xF00F = formatXY o 0 0 n) :
    formatXY o (fieldX w) (fieldY w) n = w := by
  obtain ⟨ho, hn⟩ := fieldOp_fieldN_of_maskXY h
  exact formatXY_of_op_n (congrArg _ ho) (congrArg _ hn)

theorem formatXK_of_maskXK {o : BitVec 4} {nn : Byte} (h : w &&& 0xF0FF = formatXK o 0 nn) :
    formatXK o (fieldX w) nn = w := by
  obtain ⟨ho, hnn⟩ := fieldOp_fieldNN_of_maskXK h
  exact formatXK_of_op_nn (congrArg _ ho) hnn

/-- A word that matches a row is the word of an instruction of that row. -/
theorem exists_encode_of_match {j : Nat} {p : Word × Word} (hrow : patternTable[j]? = some p)
    (hmatch : matchesPattern w p = true) : ∃ i : Instr, i.row = j ∧ encode i = w := by
  have h : w &&& p.1 = p.2 := eq_of_beq hmatch
  match j, hrow with
  | 0, rfl => exact ⟨.cls, rfl, eq_of_mask_all h⟩
  | 1, rfl => exact ⟨.ret, rfl, eq_of_mask_all h⟩
  | 2, rfl => exact ⟨.jp _, rfl, formatA_of_maskA h⟩
  | 3, rfl => exact ⟨.call _, rfl, formatA_of_maskA h⟩
  | 4, rfl => exact ⟨.seByte _ _, rfl, formatXK_of_maskA h⟩
  | 5, rfl => exact ⟨.sneByte _ _, rfl, formatXK_of_maskA h⟩
  | 6, rfl => exact ⟨.seReg _ _ _, rfl, formatXY_of_maskA h⟩
  | 7, rfl => exact ⟨.ldByte _ _, rfl, formatXK_of_maskA h⟩
  | 8, rfl => exact ⟨.addByte _ _, rfl, formatXK_of_maskA h⟩
  | 9, rfl => exact ⟨.ldReg _ _, rfl, formatXY_of_maskXY h⟩
  | 10, rfl => exact ⟨.orReg _ _, rfl, formatXY_of_maskXY h⟩
  | 11, rfl => exact ⟨.andReg _ _, rfl, formatXY_of_maskXY h⟩
  | 12, rfl => exact ⟨.xorReg _ _, rfl, formatXY_of_maskXY h⟩
  | 13, rfl => exact ⟨.addReg _ _, rfl, formatXY_of_maskXY h⟩
  | 14, rfl => exact ⟨.subReg _ _, rfl, formatXY_of_maskXY h⟩
  | 15, rfl => exact ⟨.shr _ _, rfl, formatXY_of_maskXY h⟩
  | 16, rfl => exact ⟨.subnReg _ _, rfl, formatXY_of_maskXY h⟩
  | 17, rfl => exact ⟨.shl _ _, rfl, formatXY_of_maskXY h⟩
  | 18, rfl => exact ⟨.sneReg _ _ _, rfl, formatXY_of_maskA h⟩
  | 19, rfl => exact ⟨.ldI _, rfl, formatA_of_maskA h⟩
  | 20, rfl => exact ⟨.jpV0 _, rfl, formatA_of_maskA h⟩
  | 21, rfl => exact ⟨.rnd _ _, rfl, formatXK_of_maskA h⟩
  | 22, rfl => exact ⟨.drw _ _ (fieldN w).toFin, rfl, formatXY_of_maskA h⟩
  | 23, rfl => exact ⟨.skp _, rfl, formatXK_of_maskXK h⟩
  | 24, rfl => exact ⟨.sknp _, rfl, formatXK_of_maskXK h⟩
  | 25, rfl => exact ⟨.ldVxDT _, rfl, formatXK_of_maskXK h⟩
  | 26, rfl => exact ⟨.ldVxK _, rfl, formatXK_of_maskXK h⟩
  | 27, rfl => exact ⟨.ldDTVx _, rfl, formatXK_of_maskXK h⟩
  | 28, rfl => exact ⟨.ldSTVx _, rfl, formatXK_of_maskXK h⟩
  | 29, rfl => exact ⟨.addIVx _, rfl, formatXK_of_maskXK h⟩
  | 30, rfl => exact ⟨.ldFVx _, rfl, formatXK_of_maskXK h⟩
  | 31, rfl => exact ⟨.ldBVx _, rfl, formatXK_of_maskXK h⟩
  | 32, rfl => exact ⟨.storeRegs _, rfl, formatXK_of_maskXK h⟩
  | 33, rfl => exact ⟨.loadRegs _, rfl, formatXK_of_maskXK h⟩

/-- A word is an instruction exactly when it matches a row. -/
theorem exists_decode_ok_iff : (∃ i, decode w = .ok i) ↔ ∃ p ∈ patternTable, matchesPattern w p = true := by
  constructor
  · rintro ⟨i, hi⟩
    obtain ⟨p, hrow, hmatch⟩ := encode_matches_row i
    exact ⟨p, List.mem_of_getElem? hrow, decode_eq_ok_iff.mp hi ▸ hmatch⟩
  · rintro ⟨p, hp, hmatch⟩
    obtain ⟨j, hrow⟩ := List.getElem?_of_mem hp
    obtain ⟨i, -, hi⟩ := exists_encode_of_match hrow hmatch
    exact ⟨i, decode_eq_ok_iff.mpr hi⟩

/-- Settles O3: the words that match a row are those of its instructions, and a word is that of one instruction only. -/
theorem decoderRecognisesExactlyTheTable : Obligations.DecoderRecognisesExactlyTheTable := by
  refine ⟨rfl, fun w => exists_decode_ok_iff, fun w i hi => ?_, fun w j k p q hj hk hp hq => ?_⟩
  · exact decode_eq_ok_iff.mp hi ▸ encode_matches_row i
  · obtain ⟨i, rfl, hi⟩ := exists_encode_of_match hj hp
    obtain ⟨i', rfl, hi'⟩ := exists_encode_of_match hk hq
    rw [encode_injective (hi.trans hi'.symm)]

/-! ### The ignored bits (R96) -/

/-- The assembler's spelling differs only where some ignored bit is set. -/
theorem canonical_of_wellFormed (h : i.wellFormed = true) : i.canonical = i := by
  cases i with
  | seReg x y d => rw [Instr.canonical, eq_of_beq h]
  | sneReg x y d => rw [Instr.canonical, eq_of_beq h]
  | shr x y => rw [Instr.canonical, eq_of_beq h]
  | shl x y => rw [Instr.canonical, eq_of_beq h]
  | _ => rfl

theorem canonical_wellFormed (i : Instr) : i.canonical.wellFormed = true := by
  cases i <;> rfl

/-- The bits that the core does not look at have no effect on the instruction. -/
theorem exec_canonical (i : Instr) (s : State) : exec i s = exec i.canonical s := by
  cases i with
  | seReg x y d => rw [Instr.canonical, exec_seReg, exec_seReg]
  | sneReg x y d => rw [Instr.canonical, exec_sneReg, exec_sneReg]
  | shr x y => rw [Instr.canonical, exec_shr, exec_shr]
  | shl x y => rw [Instr.canonical, exec_shl, exec_shl]
  | _ => rw [canonical_of_wellFormed rfl]

/-- Settles O6: the spelling is well-formed and acts the same, and every value of the ignored bits decodes. -/
theorem ignoredBitsHaveNoEffect : Obligations.IgnoredBitsHaveNoEffect :=
  ⟨fun i s => ⟨exec_canonical i s, canonical_wellFormed i⟩,
    fun x y d => ⟨decode_encode (.seReg x y d), decode_encode (.sneReg x y d)⟩,
    fun x y => ⟨decode_encode (.shr x y), decode_encode (.shl x y)⟩⟩

/-! ### The random input (R109) -/

/-- The state with `r` as the byte at the random input and `d` as the number of free draws taken (log 2). -/
def State.withInput (s : State) (r : Option Byte) (d : Nat) : State := { s with rnd := r, draws := d }

/-- No instruction but Cxnn uses the random input up. -/
theorem exec_keeps_input (hi : ∀ x nn, i ≠ .rnd x nn) (h : exec i s = .next t) : t.rnd = s.rnd ∧ t.draws = s.draws := by
  cases exec_effect h with
  | draw x nn => exact absurd rfl (hi x nn)
  | registers | memory | index | stack | underflow | overflow | delayTimer | soundTimer | display | keyWait =>
    exact ⟨rfl, rfl⟩

theorem State.storeList_withInput (s : State) (r : Option Byte) (d : Nat) (ks : List Reg) :
    (s.withInput r d).storeList ks = (s.storeList ks).withInput r d := by
  induction ks generalizing s with
  | nil => rfl
  | cons k ks ih => exact ih (s.memWrite (s.effAddr k.val) (s.getV k))

theorem State.loadList_withInput (s : State) (r : Option Byte) (d : Nat) (ks : List Reg) :
    (s.withInput r d).loadList ks = (s.loadList ks).withInput r d := by
  induction ks generalizing s with
  | nil => rfl
  | cons k ks ih => exact ih (s.setV k (s.memRead (s.effAddr k.val)))

/-- Where the random input holds `r` and `d`, a return does the same and keeps them. -/
theorem exec_ret_withInput (r : Option Byte) (d : Nat) (h : exec .ret s = .next t) :
    exec .ret (s.withInput r d) = .next (t.withInput r d) := by
  by_cases hsp : s.sp = 0
  · rw [exec_ret_empty s hsp] at h
    cases h
    exact exec_ret_empty (s.withInput r d) hsp
  · have hpos : 0 < s.sp.val := Fin.pos_iff_ne_zero.mpr hsp
    rw [exec_ret_ok s hpos] at h
    cases h
    exact exec_ret_ok (s.withInput r d) hpos

/-- Where the random input holds `r` and `d`, a call does the same and keeps them. -/
theorem exec_call_withInput {nnn : Addr} (r : Option Byte) (d : Nat) (h : exec (.call nnn) s = .next t) :
    exec (.call nnn) (s.withInput r d) = .next (t.withInput r d) := by
  by_cases hsp : s.sp.val < 16
  · rw [exec_call_ok s nnn hsp] at h
    cases h
    exact exec_call_ok (s.withInput r d) nnn hsp
  · have hfull : s.sp = 16 := by omega
    rw [exec_call_full s nnn hfull] at h
    cases h
    exact exec_call_full (s.withInput r d) nnn hfull

/-- Where the random input holds `r` and `d`, every instruction but Cxnn does the same and keeps them. -/
theorem exec_withInput (r : Option Byte) (d : Nat) (hi : ∀ x nn, i ≠ .rnd x nn) (h : exec i s = .next t) :
    exec i (s.withInput r d) = .next (t.withInput r d) := by
  cases i with
  | rnd x nn => exact absurd rfl (hi x nn)
  | ret => exact exec_ret_withInput r d h
  | call nnn => exact exec_call_withInput r d h
  | storeRegs x => cases h; rw [exec_storeRegs, State.storeList_withInput]; rfl
  | loadRegs x => cases h; rw [exec_loadRegs, State.loadList_withInput]; rfl
  | _ => cases h; rfl

/-- Settles O30: the input takes no part in the effect of such an instruction, nor is it among what the instruction writes. -/
theorem randomInputMattersOnlyToRnd : Obligations.RandomInputMattersOnlyToRnd :=
  fun _ _ _ r d hi h => ⟨exec_withInput r d hi h, exec_keeps_input hi h⟩

/-! ### The cycle (R105 to R107) -/

theorem State.consumeDraw_rnd (s : State) : s.consumeDraw.rnd = none := by
  unfold State.consumeDraw
  split
  · rfl
  · next h => exact h

theorem State.dropSample_of_none (h : s.rnd = none) : s.dropSample = s := by
  rw [State.dropSample, ← h]

/-- No instruction brings a byte to a random input that holds none. -/
theorem exec_rnd_none (hs : s.rnd = none) (h : exec i s = .next t) : t.rnd = none := by
  cases i with
  | rnd x nn => cases h; exact s.consumeDraw_rnd
  | _ => exact (exec_keeps_input (by simp) h).1.trans hs

/-- Settles O7: with nothing waiting the step is a STEP with a free draw, and its instruction leaves no byte to drop. -/
theorem stepRunsTheDecodedInstruction : Obligations.StepRunsTheDecodedInstruction := by
  intro s i hp hf hk hd
  obtain ⟨t, ht, -⟩ := exec_next_effect i (s.sample none)
  have hdrop : t.dropSample = t := State.dropSample_of_none (exec_rnd_none rfl ht)
  calc step s = s.stepWith none := step_of_nil s hp
    _ = .next t.dropSample := s.stepWith_ok hf hk hd ht
    _ = exec i (s.sample none) := by rw [hdrop, ht]

/-- The output of a STEP that leaves a fault is the record (R43). -/
theorem output_step_of_fault (r : Option Byte) (s : State) (h : t.fault ≠ .none) :
    output (.step r) s t = .fault t.fault t.faultWord :=
  (State.result_eq t).trans (if_neg h)

/-- The output of a STEP that leaves no fault is OK (R43). -/
theorem output_step_of_no_fault (r : Option Byte) (s : State) (h : t.fault = .none) : output (.step r) s t = .ok :=
  (State.result_eq t).trans (if_pos h)

/-- Settles O8, by the cases of R105. -/
theorem stepChecksHaltThenWaitThenExecutes : Obligations.StepChecksHaltThenWaitThenExecutes := by
  refine fun s r => ⟨fun hf => ?_, fun hf hk => ?_, fun hf hk => ⟨fun i hd => ?_, fun e hd => ?_⟩⟩
  · exact ⟨_, s.stepWith_halted r hf, rfl, output_step_of_fault r s hf⟩
  · exact ⟨_, s.stepWith_stalled r hk, rfl, output_step_of_no_fault r s hf⟩
  · obtain ⟨u, hu, -⟩ := exec_next_effect i (s.sample r)
    exact ⟨u, _, hu, s.stepWith_ok hf hk hd hu, rfl, output_step_of_no_fault r s, output_step_of_fault r s⟩
  · exact ⟨_, s.stepWith_error r hf hk hd, rfl, output_step_of_fault r s FaultKind.noConfusion⟩

/-- Settles O9: a word of no row is no instruction, so the STEP ends in the last case of R105. -/
theorem unmatchedWordRaisesUnknownOpcode : Obligations.UnmatchedWordRaisesUnknownOpcode := by
  intro s r hf hk hno
  cases hd : decode s.fetchWord with
  | ok i =>
    obtain ⟨p, hp, hmatch⟩ := exists_decode_ok_iff.mp ⟨i, hd⟩
    exact absurd hmatch (by rw [State.fetchWord, wordOfBytes, hno p hp]; decide)
  | error e =>
    obtain ⟨-, -, hrunning⟩ := stepChecksHaltThenWaitThenExecutes s r
    obtain ⟨-, hunknown⟩ := hrunning hf hk
    exact hunknown e hd

end Sys2Proof.Machine
end

section
/-! SUPPORT. Drawing a sprite pixel by pixel, the collision detector and the frames of the display (40_display.md), with the
statements of that family. -/

namespace Sys2Proof.Machine

variable {s : State} {fb : Framebuffer} {d : Canvas} {P Q : Fin 64 → Fin 32 → Prop}
  {ox oy r c : Nat} {b : Byte} {px : Fin 64} {py : Fin 32}

/-! ### A canvas on which some pixels are drawn (R137, R138) -/

/-- The canvas `d` comes from the framebuffer `fb` by drawing each pixel of `P` once: these are toggled, the others are
kept, and the flag says whether one of them was on in `fb`. -/
structure Drawn (fb : Framebuffer) (P : Fin 64 → Fin 32 → Prop) (d : Canvas) : Prop where
  toggled : ∀ px py, P px py → pixelOn d.1 px py = !pixelOn fb px py
  kept : ∀ px py, ¬ P px py → pixelOn d.1 px py = pixelOn fb px py
  hit_iff : d.2 = true ↔ ∃ px py, P px py ∧ pixelOn fb px py = true

theorem Drawn.congr (hd : Drawn fb P d) (h : ∀ px py, P px py ↔ Q px py) : Drawn fb Q d := by
  obtain rfl : P = Q := funext fun px => funext fun py => propext (h px py)
  exact hd

theorem drawn_nothing (hP : ∀ px py, ¬ P px py) : Drawn fb P (fb, false) where
  toggled px py h := absurd h (hP px py)
  kept _ _ _ := rfl
  hit_iff := by simp [hP]

/-- The pixel that column `c` of row `r` draws: its bit is set, and it falls there after the wrap (R135, R136). -/
def ColumnCovers (ox oy : Nat) (b : Byte) (r c : Nat) (px : Fin 64) (py : Fin 32) : Prop :=
  spriteBit b c = true ∧ px = wrapX (ox + c) ∧ py = wrapY (oy + r)

theorem drawColumn_toggles (h : ColumnCovers ox oy b r c px py) :
    pixelOn (drawColumn ox oy b r c d).1 px py = !pixelOn d.1 px py := by
  obtain ⟨hbit, rfl, rfl⟩ := h
  simp [pixelOn_drawColumn, hbit]

theorem drawColumn_keeps (h : ¬ ColumnCovers ox oy b r c px py) :
    pixelOn (drawColumn ox oy b r c d).1 px py = pixelOn d.1 px py := by
  have hfalse : (spriteBit b c && decide (px = wrapX (ox + c) ∧ py = wrapY (oy + r))) = false := by
    rwa [← Bool.not_eq_true, Bool.and_eq_true, decide_eq_true_eq]
  rw [pixelOn_drawColumn, hfalse, Bool.xor_false]

/-- A column whose pixel has not been drawn draws it: its test sees the pixel as it was in `fb` (R143). -/
theorem Drawn.drawColumn (hd : Drawn fb P d) (hfresh : ∀ px py, ColumnCovers ox oy b r c px py → ¬ P px py) :
    Drawn fb (fun px py => P px py ∨ ColumnCovers ox oy b r c px py) (drawColumn ox oy b r c d) where
  toggled px py h := by
    rcases h with hP | hcol
    · rw [drawColumn_keeps fun hcol => hfresh px py hcol hP, hd.toggled px py hP]
    · rw [drawColumn_toggles hcol, hd.kept px py (hfresh px py hcol)]
  kept px py h := by
    obtain ⟨hP, hcol⟩ := not_or.mp h
    rw [drawColumn_keeps hcol, hd.kept px py hP]
  hit_iff := by
    have hcol : (spriteBit b c && pixelOn d.1 (wrapX (ox + c)) (wrapY (oy + r))) = true ↔
        ∃ px py, ColumnCovers ox oy b r c px py ∧ pixelOn fb px py = true := by
      rw [Bool.and_eq_true]
      constructor
      · rintro ⟨hbit, hon⟩
        have hcov : ColumnCovers ox oy b r c (wrapX (ox + c)) (wrapY (oy + r)) := ⟨hbit, rfl, rfl⟩
        exact ⟨_, _, hcov, hd.kept _ _ (hfresh _ _ hcov) ▸ hon⟩
      · rintro ⟨_, _, ⟨hbit, rfl, rfl⟩, hon⟩
        exact ⟨hbit, hd.kept _ _ (hfresh _ _ ⟨hbit, rfl, rfl⟩) ▸ hon⟩
    rw [drawColumn_hit, Bool.or_eq_true, hd.hit_iff, hcol]
    simp only [or_and_right, exists_or]

/-! ### The order of drawing: rows, and columns within a row (R131, R143) -/

theorem spriteBitAt_iff : s.SpriteBitAt ox oy r c px py ↔ ColumnCovers ox oy (s.spriteRow r) r c px py := by
  simp only [State.SpriteBitAt, ColumnCovers, Fin.ext_iff, eq_comm]
  rfl

/-- The pixels drawn before column `c` of row `r`: those of the rows above and those of the columns to the left. -/
def State.CoveredBefore (s : State) (ox oy r c : Nat) (px : Fin 64) (py : Fin 32) : Prop :=
  s.SpriteCovers ox oy r px py ∨ ∃ c' < c, s.SpriteBitAt ox oy r c' px py

theorem State.coveredBefore_zero : s.CoveredBefore ox oy r 0 px py ↔ s.SpriteCovers ox oy r px py := by
  simp [State.CoveredBefore]

theorem State.coveredBefore_succ :
    s.CoveredBefore ox oy r (c + 1) px py ↔ s.CoveredBefore ox oy r c px py ∨ s.SpriteBitAt ox oy r c px py := by
  simp only [State.CoveredBefore, Nat.exists_lt_succ_right, or_assoc]

theorem State.spriteCovers_succ : s.SpriteCovers ox oy (r + 1) px py ↔ s.CoveredBefore ox oy r 8 px py := by
  simp only [State.CoveredBefore, State.SpriteCovers, Nat.exists_lt_succ_right]

/-- No pixel is the destination of two sprite bits: 8 columns < 64 and at most 15 rows < 32 (R143). -/
theorem State.SpriteBitAt.not_coveredBefore (hr : r < 32) (hc : c < 8) (h : s.SpriteBitAt ox oy r c px py) :
    ¬ s.CoveredBefore ox oy r c px py := by
  obtain ⟨-, hx, hy⟩ := h
  rintro (⟨r', hr', -, -, -, -, hy'⟩ | ⟨c', hc', -, hx', -⟩)
  · have hrow : (oy + r') % 32 = (oy + r) % 32 := hy'.trans hy.symm
    omega
  · have hcolumn : (ox + c') % 64 = (ox + c) % 64 := hx'.trans hx.symm
    omega

/-- The first `c` columns of row `r` draw their pixels on the canvas that the rows above left. -/
theorem drawColumns_drawn (hr : r < 32) (hc : c ≤ 8) (hd : Drawn fb (s.SpriteCovers ox oy r) d) :
    Drawn fb (s.CoveredBefore ox oy r c)
      ((List.range c).foldl (fun d c => drawColumn ox oy (s.spriteRow r) r c d) d) := by
  induction c with
  | zero => exact hd.congr fun _ _ => State.coveredBefore_zero.symm
  | succ c ih =>
    rw [List.range_succ, List.foldl_append]
    have hdrawn := (ih (by omega)).drawColumn
      fun px py (hcol : ColumnCovers ox oy (s.spriteRow r) r c px py) =>
        (spriteBitAt_iff.mpr hcol).not_coveredBefore hr (by omega)
    exact hdrawn.congr fun px py => by rw [State.coveredBefore_succ, spriteBitAt_iff]

/-- A sprite draws exactly the pixels its set bits cover, for any number of rows that fits the display. -/
theorem drawSprite_drawn (s : State) (ox oy : Nat) {n : Nat} (hn : n ≤ 32) :
    Drawn s.fb (s.SpriteCovers ox oy n) (s.drawSprite ox oy n) := by
  unfold State.drawSprite
  induction n with
  | zero => exact drawn_nothing fun _ _ ⟨_, h, _⟩ => absurd h (Nat.not_lt_zero _)
  | succ n ih =>
    rw [List.range_succ, List.foldl_append]
    have hrow := drawColumns_drawn (c := 8) (by omega) le_rfl (ih (by omega))
    exact hrow.congr fun _ _ => State.spriteCovers_succ.symm

/-! ### Dxyn (R131 to R143) -/

/-- The canvas of Dxyn: the origin is `(Vx mod 64, Vy mod 32)`, from the registers before VF is written (R132). -/
theorem exec_drw_drawn (s : State) (x y : Reg) (n : Rows) :
    Drawn s.fb (s.SpriteCovers ((s.getV x).toNat % 64) ((s.getV y).toNat % 32) n.val)
      (s.drawSprite (s.originX x) (s.originY y) n.val) :=
  drawSprite_drawn s _ _ (by omega)

/-- Settles O13: the canvas that Dxyn stores has the covered pixels toggled and the others kept. -/
theorem drawTogglesExactlyTheSpritePixels : Obligations.DrawTogglesExactlyTheSpritePixels := by
  intro x y n s
  have hd := exec_drw_drawn s x y n
  exact ⟨_, exec_drw s x y n, fun px py => ⟨hd.toggled px py, hd.kept px py⟩, rfl, rfl⟩

/-- VF after Dxyn is the flag of its canvas. -/
theorem exec_drw_getV_VF (s : State) (x y : Reg) (n : Rows) : ∃ t, exec (.drw x y n) s = .next t ∧
    t.getV VF = flagByte (s.drawSprite (s.originX x) (s.originY y) n.val).2 :=
  ⟨_, exec_drw s x y n, by simp⟩

/-- Settles O14: the flag of the canvas is set exactly when a covered pixel was on before the instruction. -/
theorem drawSetsVFToTheCollision : Obligations.DrawSetsVFToTheCollision := by
  intro x y n s
  have hd := exec_drw_drawn s x y n
  obtain ⟨t, ht, hvf⟩ := exec_drw_getV_VF s x y n
  refine ⟨t, ht, fun hmet => ?_, fun hmiss => ?_⟩
  · rw [hvf, hd.hit_iff.mpr hmet]; rfl
  · rw [hvf, Bool.eq_false_iff.mpr (mt hd.hit_iff.mp hmiss)]; rfl

/-! ### The frames of the display -/

/-- An update of the display, the register file and pc keeps the frame of Dxyn where it leaves every register but VF alone. -/
theorem onlyDisplayAndVF_update (fb : Framebuffer) {v : Vector Byte 16} (pc : Word)
    (hv : SameRegsBut (· = VF) s { s with v := v }) :
    OnlyDisplayAndVF s { s with fb := fb, redraw := true, v := v, pc := pc } :=
  ⟨hv, fun _ => rfl, rfl, ⟨rfl, rfl⟩, ⟨rfl, rfl⟩, ⟨rfl, rfl, rfl⟩, ⟨rfl, rfl⟩, rfl, rfl, rfl, rfl⟩

/-- Settles O15: the one register that Dxyn writes is VF. -/
theorem drawFrame : Obligations.DrawFrame := by
  intro x y n s t h
  rw [exec_drw] at h
  cases h
  exact onlyDisplayAndVF_update _ _ (sameRegsBut_setV (i := .drw x y n) rfl _)

/-- Settles O12: 00E0 stores the blank display and writes no register. -/
theorem clearScreenTurnsEveryPixelOff : Obligations.ClearScreenTurnsEveryPixelOff := fun s =>
  ⟨_, exec_cls s, fun _ => pixelOn_blank _ _, rfl, rfl, onlyDisplayAndVF_update _ _ fun _ _ => rfl, fun _ => rfl⟩

/-- Settles O52: CLEAR_REDRAW is one update of the flag. -/
theorem clearRedrawOnlyClearsTheFlag : Obligations.ClearRedrawOnlyClearsTheFlag := fun s =>
  ⟨s.clearRedraw, rfl, rfl, rfl, rfl, fun _ => rfl, fun _ => rfl, rfl, ⟨rfl, rfl⟩, ⟨rfl, rfl⟩, ⟨rfl, rfl, rfl⟩,
    ⟨rfl, rfl⟩, rfl, rfl, rfl, rfl⟩

end Sys2Proof.Machine
end

section
/-! SUPPORT. Jumps, the skips on registers, and the call stack with its round trip (41_control.md), with the statements of
that family. -/

namespace Sys2Proof.Machine

variable {s : State} {i : Instr}

/-! ### Jumps (R151, R157) -/

/-- A jump writes pc only. -/
theorem State.jump_onlyPc (s : State) (a : Word) : OnlyPc s (s.jump a) :=
  ⟨fun _ _ => rfl, fun _ => rfl, rfl, ⟨rfl, rfl⟩, ⟨rfl, rfl⟩, ⟨rfl, rfl⟩, ⟨rfl, rfl, rfl⟩, ⟨rfl, rfl⟩, rfl, rfl, rfl, rfl⟩

/-- Settles O17: 1nnn is one jump. -/
theorem jumpGoesToNnn : Obligations.JumpGoesToNnn := fun nnn s =>
  ⟨_, exec_jp s nnn, zextAddr_toNat nnn, s.jump_onlyPc _⟩

/-- The sum of an address and a byte fits 16 bits. -/
theorem zextAddr_add_zextByte_toNat (nnn : Addr) (b : Byte) :
    (zextAddr nnn + zextByte b).toNat = nnn.toNat + b.toNat := by
  rw [BitVec.toNat_add, zextAddr_toNat, zextByte_toNat]
  have := nnn.isLt
  have := b.isLt
  omega

/-- Settles O18: Bnnn is one jump, and 0x10FE is the sum of the largest address and the largest byte. -/
theorem indexedJumpAddsV0 : Obligations.IndexedJumpAddsV0 := by
  intro nnn s
  have hsum : (zextAddr nnn + zextByte (s.getV 0)).toNat = nnn.toNat + (s.getV 0).toNat :=
    zextAddr_add_zextByte_toNat nnn (s.getV 0)
  refine ⟨_, exec_jpV0 s nnn, hsum, ?_, s.jump_onlyPc _⟩
  rw [State.jump_pc, hsum]
  have := nnn.isLt
  have := (s.getV 0).isLt
  omega

/-! ### Skips (R153 to R156, R159) -/

/-- A skip is a jump to one of two targets, so it writes pc only. -/
theorem State.skipIf_onlyPc (s : State) (c : Bool) : OnlyPc s (s.skipIf c) := s.jump_onlyPc _

/-- An instruction that is a skip on `c` goes to pc + 4 where `c` holds and to pc + 2 where it does not, and writes pc only:
`P` and `Q` are the two cases of `c` as the rule says them. -/
theorem exec_skip_cases {c : Bool} {P Q : Prop} (h : exec i s = .next (s.skipIf c)) (hP : P → c = true)
    (hQ : Q → c = false) :
    ∃ t, exec i s = .next t ∧ (P → t.pc = s.pc + 4) ∧ (Q → t.pc = s.pc + 2) ∧ OnlyPc s t :=
  ⟨_, h, fun hp => if_pos (hP hp), fun hq => if_neg (Bool.eq_false_iff.mp (hQ hq)), s.skipIf_onlyPc c⟩

/-- Settles O22: the two skips test the equality of Vx and nn. -/
theorem skipOnByteComparesVx : Obligations.SkipOnByteComparesVx := fun x nn s =>
  ⟨exec_skip_cases (exec_seByte s x nn) beq_iff_eq.mpr beq_eq_false_iff_ne.mpr,
    exec_skip_cases (exec_sneByte s x nn) bne_iff_ne.mpr bne_eq_false_iff_eq.mpr⟩

theorem exec_seReg_cases (s : State) (x y : Reg) (d : BitVec 4) :
    ∃ t, exec (.seReg x y d) s = .next t ∧ (s.getV x = s.getV y → t.pc = s.pc + 4) ∧
      (s.getV x ≠ s.getV y → t.pc = s.pc + 2) ∧ OnlyPc s t :=
  exec_skip_cases (exec_seReg s x y d) beq_iff_eq.mpr beq_eq_false_iff_ne.mpr

theorem exec_sneReg_cases (s : State) (x y : Reg) (d : BitVec 4) :
    ∃ t, exec (.sneReg x y d) s = .next t ∧ (s.getV x ≠ s.getV y → t.pc = s.pc + 4) ∧
      (s.getV x = s.getV y → t.pc = s.pc + 2) ∧ OnlyPc s t :=
  exec_skip_cases (exec_sneReg s x y d) bne_iff_ne.mpr bne_eq_false_iff_eq.mpr

/-- Settles O23: the two skips test the equality of Vx and Vy, which holds where x = y. -/
theorem skipOnRegistersComparesVxVy : Obligations.SkipOnRegistersComparesVxVy := by
  intro x y d s
  obtain ⟨t, ht, hskip, -, -⟩ := exec_seReg_cases s x x d
  obtain ⟨u, hu, -, hnoskip, -⟩ := exec_sneReg_cases s x x d
  exact ⟨exec_seReg_cases s x y d, exec_sneReg_cases s x y d, ⟨t, ht, hskip rfl⟩, ⟨u, hu, hnoskip rfl⟩⟩

/-! ### Call and return (R150, R152) -/

/-- An update of the stack and pc keeps the frame of 2nnn and 00EE. -/
theorem onlyStack_update (s : State) (stack : Vector Word 16) (sp : Fin 17) (pc : Word) :
    OnlyStack s { s with stack := stack, sp := sp, pc := pc } :=
  ⟨fun _ => rfl, fun _ => rfl, rfl, ⟨rfl, rfl⟩, ⟨rfl, rfl⟩, ⟨rfl, rfl, rfl⟩, ⟨rfl, rfl⟩, rfl, rfl, rfl, rfl⟩

/-- Settles O19: the address is stored at `sp` and every other entry is kept; 16 entries leave no room. -/
theorem callPushesItsOwnAddress : Obligations.CallPushesItsOwnAddress := by
  refine fun nnn s => ⟨fun h => ?_, fun h => ?_⟩
  · have hentries (j : Fin 16) :
        (s.stack.set s.sp.val s.pc)[j.val] = if j.val = s.sp.val then s.pc else s.stack[j.val] := by
      simp only [Vector.getElem_set, eq_comm]
    exact ⟨_, exec_call_ok s nnn h, rfl, zextAddr_toNat nnn, hentries, onlyStack_update s _ _ _⟩
  · exact exec_call_full s nnn (Fin.eq_of_val_eq h)

/-- Where the newest entry is `j`, a return leaves `j` entries valid and goes to that entry plus 2. -/
theorem exec_ret_newest {j : Fin 16} (h : s.sp.val = j.val + 1) :
    exec .ret s = .next (State.jump { s with sp := j.castSucc } (s.stack[j.val] + 2)) := by
  have hj : s.sp.val - 1 = j.val := by omega
  rw [exec_ret_ok s (by omega)]
  simp only [hj]
  rfl

/-- Settles O20, by `exec_ret_newest`; no entry is left to pop where `sp` is 0. -/
theorem returnGoesToThePoppedAddressPlusTwo : Obligations.ReturnGoesToThePoppedAddressPlusTwo := by
  refine fun s => ⟨fun j hj => ?_, fun h => ?_⟩
  · exact ⟨_, exec_ret_newest hj, rfl, BitVec.toNat_add _ _, rfl, onlyStack_update s _ _ _⟩
  · exact exec_ret_empty s (Fin.eq_of_val_eq h)

/-- Settles O21: the newest entry of the stack that the call left is the one the call stored, its own address. -/
theorem returnComesBackAfterTheCall : Obligations.ReturnComesBackAfterTheCall := by
  intro nnn s t u hroom hcall hstack hsp
  rw [exec_call_ok s nnn hroom] at hcall
  cases hcall
  have hnewest : u.sp.val = (⟨s.sp.val, hroom⟩ : Fin 16).val + 1 := congrArg Fin.val hsp
  have hentry : u.stack[s.sp.val] = s.pc := by rw [hstack]; exact Vector.getElem_set_self hroom
  exact ⟨_, exec_ret_newest hnewest, congrArg (· + 2) hentry, rfl⟩

end Sys2Proof.Machine
end

section
/-! SUPPORT. Results, flags and the random draw of the register arithmetic (42_alu.md), with the statements of that family. -/

namespace Sys2Proof.Machine

variable {s : State} {i : Instr} {x : Reg}

/-! ### The frames (R23) -/

/-- An update of the register file and pc keeps the frame of the registers that it leaves alone. -/
theorem onlyRegs_update {written : Reg → Prop} {v : Vector Byte 16} (pc : Word)
    (hv : SameRegsBut written s { s with v := v }) : OnlyRegs written s { s with v := v, pc := pc } :=
  ⟨hv, fun _ => rfl, rfl, ⟨rfl, rfl⟩, ⟨rfl, rfl⟩, ⟨rfl, rfl⟩, ⟨rfl, rfl, rfl⟩, ⟨rfl, rfl⟩, rfl, rfl, rfl, rfl⟩

theorem State.setV_onlyRegs (s : State) (x : Reg) (b : Byte) : OnlyRegs (· = x) s (s.setV x b).advance :=
  onlyRegs_update _ fun _ hr => s.getV_setV_ne b hr

/-- An update of the register file, pc and the random input keeps the frame of the registers that it leaves alone. -/
theorem onlyRegsAndDraw_update {written : Reg → Prop} {v : Vector Byte 16} (pc : Word) (rnd : Option Byte) (draws : Nat)
    (hv : SameRegsBut written s { s with v := v }) :
    OnlyRegsAndDraw written s { s with v := v, pc := pc, rnd := rnd, draws := draws } :=
  ⟨hv, fun _ => rfl, rfl, ⟨rfl, rfl⟩, ⟨rfl, rfl⟩, ⟨rfl, rfl⟩, ⟨rfl, rfl, rfl⟩, ⟨rfl, rfl⟩, rfl, rfl⟩

/-! ### Results with a flag (R180, R187 to R191) -/

theorem flagByte_decide (p : Prop) [Decidable p] : flagByte (decide p) = if p then 1 else 0 := by
  simp [flagByte]

theorem flagByte_toNat (f : Bool) : (flagByte f).toNat = f.toNat := by
  cases f <;> rfl

/-- An instruction that writes the flag `f` and then the result `b`, whose value is `n`: Vx is the result for every x, VF
is the flag, with what `F` says of it, unless x is VF itself (D6), and no other register is written. -/
theorem exec_flag_cases {f : Bool} {b : Byte} {n : Nat} {F : Byte → Prop}
    (h : exec i s = .next (s.writeFlagThenResult f x b).advance) (hb : b.toNat = n) (hF : F (flagByte f)) :
    ∃ t, exec i s = .next t ∧ (t.getV x).toNat = n ∧ (x ≠ VF → F (t.getV VF)) ∧ t.pc = s.pc + 2 ∧
      OnlyRegs (fun r => r = x ∨ r = VF) s t := by
  have hread (r : Reg) := s.writeFlagThenResult_getV f x r b
  refine ⟨_, h, ?_, fun hx => ?_, rfl, onlyRegs_update _ fun r hr => ?_⟩
  · rw [State.advance_getV, hread, if_pos rfl, hb]
  · rwa [State.advance_getV, hread, if_neg (Ne.symm hx), if_pos rfl]
  · exact (hread r).trans ((if_neg (hr ∘ .inl)).trans (if_neg (hr ∘ .inr)))

/-- Settles O26: the result is the sum of the bytes, and the flag is the carry. -/
theorem addSetsTheCarry : Obligations.AddSetsTheCarry := fun x y s =>
  exec_flag_cases (F := (· = _)) (exec_addReg s x y) (BitVec.toNat_add _ _) (flagByte_decide _)

/-- The difference of bytes, with the borrow of 256 added before the subtraction of numbers. -/
theorem byte_sub_toNat (a b : Byte) : (a - b).toNat = (a.toNat + 256 - b.toNat) % 256 := by
  have := b.isLt
  rw [BitVec.toNat_sub]
  omega

/-- Settles O27: 8xy5 and 8xy7 are one subtraction with the operands exchanged. -/
theorem subtractSetsNotBorrow : Obligations.SubtractSetsNotBorrow := fun x y s =>
  ⟨exec_flag_cases (F := (· = _)) (exec_subReg s x y) (byte_sub_toNat _ _) (flagByte_decide _),
    exec_flag_cases (F := (· = _)) (exec_subnReg s x y) (byte_sub_toNat _ _) (flagByte_decide _)⟩

/-- The flag that holds bit `j` of a byte is the remainder mod 2 of the byte shifted down by `j`. -/
theorem flagByte_getLsbD_toNat (b : Byte) (j : Nat) : (flagByte (b.getLsbD j)).toNat = b.toNat / 2 ^ j % 2 := by
  rw [flagByte_toNat, BitVec.getLsbD, Nat.toNat_testBit]

theorem byte_ushiftRight_one_toNat (b : Byte) : (b >>> 1).toNat = b.toNat / 2 := by
  rw [BitVec.toNat_ushiftRight, Nat.shiftRight_eq_div_pow, pow_one]

theorem byte_shiftLeft_one_toNat (b : Byte) : (b <<< 1).toNat = b.toNat * 2 % 256 := by
  rw [BitVec.toNat_shiftLeft, Nat.shiftLeft_eq, pow_one]

theorem flagByte_shiftedOutRight_toNat (b : Byte) : (flagByte (shiftedOutRight b)).toNat = b.toNat % 2 := by
  rw [shiftedOutRight, flagByte_getLsbD_toNat, pow_zero, Nat.div_one]

theorem flagByte_shiftedOutLeft_toNat (b : Byte) : (flagByte (shiftedOutLeft b)).toNat = b.toNat / 128 := by
  have := b.isLt
  rw [shiftedOutLeft, flagByte_getLsbD_toNat]
  omega

/-- Settles O28: the bit shifted out to the right is the remainder mod 2, the one to the left the quotient by 128. -/
theorem shiftsMoveOneBitIntoVF : Obligations.ShiftsMoveOneBitIntoVF := fun x y s =>
  ⟨exec_flag_cases (F := (·.toNat = _)) (exec_shr s x y) (byte_ushiftRight_one_toNat _)
      (flagByte_shiftedOutRight_toNat _),
    exec_flag_cases (F := (·.toNat = _)) (exec_shl s x y) (byte_shiftLeft_one_toNat _)
      (flagByte_shiftedOutLeft_toNat _)⟩

/-! ### Results without a flag (R181 to R186) -/

/-- An instruction that writes `b` to Vx makes Vx what `R` says of `b`, and writes no flag. -/
theorem exec_result_cases {b : Byte} {R : Byte → Prop} (h : exec i s = .next (s.setV x b).advance) (hR : R b) :
    ∃ t, exec i s = .next t ∧ R (t.getV x) ∧ t.pc = s.pc + 2 ∧ OnlyRegs (· = x) s t := by
  refine ⟨_, h, ?_, rfl, s.setV_onlyRegs x b⟩
  rwa [State.advance_getV, State.getV_setV_same]

/-- Settles O24: 6xnn stores its byte and 7xnn the sum of bytes. -/
theorem immediateLoadAndAdd : Obligations.ImmediateLoadAndAdd := fun x nn s =>
  ⟨exec_result_cases (R := (· = _)) (exec_ldByte s x nn) rfl,
    exec_result_cases (R := (·.toNat = _)) (exec_addByte s x nn) (BitVec.toNat_add _ _)⟩

/-- An instruction that writes `b` to Vx, with bit `j` of `b` being `c j`, makes Vx those bits, and writes no flag. -/
theorem exec_bits_cases {b : Byte} {c : Nat → Bool} (h : exec i s = .next (s.setV x b).advance)
    (hb : ∀ j, b.getLsbD j = c j) :
    ∃ t, exec i s = .next t ∧ (∀ j < 8, (t.getV x).getLsbD j = c j) ∧ t.pc = s.pc + 2 ∧ OnlyRegs (· = x) s t :=
  exec_result_cases (R := fun v => ∀ j < 8, v.getLsbD j = c j) h fun j _ => hb j

/-- Settles O25: 8xy0 stores Vy, and each of the three logic operations acts on every bit by itself. -/
theorem registerCopyAndLogic : Obligations.RegisterCopyAndLogic := fun x y s =>
  ⟨exec_result_cases (R := (· = _)) (exec_ldReg s x y) rfl,
    exec_bits_cases (exec_orReg s x y) fun _ => BitVec.getLsbD_or,
    exec_bits_cases (exec_andReg s x y) fun _ => BitVec.getLsbD_and,
    exec_bits_cases (exec_xorReg s x y) fun _ => BitVec.getLsbD_xor⟩

/-! ### The random draw (R192, R109) -/

/-- Cxnn with a byte at the random input: it takes that byte, and no free draw. -/
theorem exec_rnd_given {b : Byte} (x : Reg) (nn : Byte) (h : s.rnd = some b) :
    exec (.rnd x nn) s = .next (s.dropSample.setV x (b &&& nn)).advance := by
  have hdraw : s.consumeDraw = s.dropSample := by simp [State.consumeDraw, State.dropSample, h]
  rw [exec_rnd, s.drawn_given h, hdraw]

/-- Cxnn with nothing at the random input: it takes one free draw (log 2). -/
theorem exec_rnd_free (x : Reg) (nn : Byte) (h : s.rnd = none) : exec (.rnd x nn) s =
    .next (State.setV { s with draws := s.draws + 1 } x (Config.randomByte s.draws &&& nn)).advance := by
  have hdraw : s.consumeDraw = { s with draws := s.draws + 1 } := by simp [State.consumeDraw, h]
  rw [exec_rnd, s.drawn_free h, hdraw]

/-- Settles O29: a byte at the random input is the draw, else the free value, and STEP puts its byte at the input. -/
theorem randomIsTheMaskedDraw : Obligations.RandomIsTheMaskedDraw := by
  refine fun x nn s => ⟨fun b hb => ?_, fun hnone => ?_, fun b hf hk hd => ?_⟩
  · exact ⟨_, exec_rnd_given x nn hb, State.getV_setV_same _ x _, rfl, rfl, rfl,
      onlyRegsAndDraw_update _ _ _ fun _ hr => s.getV_setV_ne _ hr⟩
  · exact ⟨_, exec_rnd_free x nn hnone, State.getV_setV_same _ x _, rfl, hnone, rfl,
      onlyRegsAndDraw_update _ _ _ fun _ hr => s.getV_setV_ne _ hr⟩
  · have hexec := exec_rnd_given (s := s.sample (some b)) x nn rfl
    exact ⟨_, s.stepWith_ok hf hk hd hexec, State.getV_setV_same _ x _, rfl⟩

end Sys2Proof.Machine
end

section
/-! SUPPORT. The writers of `I`, the decimal digits and the block transfers (43_index_memory.md), with the statements of that
family. -/

namespace Sys2Proof.Machine

variable {s t : State} {i : Instr}

/-! ### The index register (R220 to R222) -/

/-- An instruction that writes `w` to `I` makes it the number `w` is, moves pc to the next word and writes nothing else. -/
theorem exec_index_cases {w : Word} {n : Nat} (h : exec i s = .next { s with i := w }.advance) (hw : w.toNat = n) :
    ∃ t, exec i s = .next t ∧ t.i.toNat = n ∧ t.pc = s.pc + 2 ∧ OnlyIndex s t :=
  ⟨_, h, hw, rfl, fun _ => rfl, fun _ => rfl, ⟨rfl, rfl⟩, ⟨rfl, rfl⟩, ⟨rfl, rfl⟩, ⟨rfl, rfl, rfl⟩, ⟨rfl, rfl⟩, rfl, rfl,
    rfl, rfl⟩

theorem word_add_zextByte_toNat (w : Word) (b : Byte) : (w + zextByte b).toNat = (w.toNat + b.toNat) % 65536 := by
  rw [BitVec.toNat_add, zextByte_toNat]

/-- Settles O31: the number written is the operand, a sum mod 2^16, or 5 times a byte, which fits 16 bits. -/
theorem indexRegisterWrites : Obligations.IndexRegisterWrites :=
  ⟨fun nnn s => exec_index_cases (exec_ldI s nnn) (zextAddr_toNat nnn), fun x s =>
    ⟨exec_index_cases (exec_addIVx s x) (word_add_zextByte_toNat s.i _),
      exec_index_cases (exec_ldFVx s x) (glyphAddr_toNat _)⟩⟩

/-! ### The frame of a store (R71, R226) -/

/-- An instruction that writes memory and pc keeps every byte but those it stores to, and every other element. -/
theorem exec_onlyMemory {mem : Memory} {pc : Word} (h : exec i s = .next { s with mem := mem, pc := pc }) :
    OnlyMemory (s.storesTo i) s { s with mem := mem, pc := pc } :=
  ⟨onlyNamedBytesAreStored i s _ h, fun _ => rfl, rfl, ⟨rfl, rfl⟩, ⟨rfl, rfl⟩, ⟨rfl, rfl⟩, ⟨rfl, rfl, rfl⟩, ⟨rfl, rfl⟩,
    rfl, rfl, rfl, rfl⟩

/-! ### The decimal digits (R223) -/

theorem hundreds_toNat (b : Byte) : (hundreds b).toNat = b.toNat / 100 := by
  have := b.isLt
  rw [hundreds, BitVec.toNat_ofNat]
  omega

theorem tens_toNat (b : Byte) : (tens b).toNat = b.toNat / 10 % 10 := by
  rw [tens, BitVec.toNat_ofNat]
  omega

theorem units_toNat (b : Byte) : (units b).toNat = b.toNat % 10 := by
  rw [units, BitVec.toNat_ofNat]
  omega

/-- Three bytes stored from `I` on stand each at its own address, also where the addresses wrap (R61). -/
theorem State.memRead_three_stored (s : State) (b₀ b₁ b₂ : Byte) :
    let t := ((s.memWrite (s.effAddr 0) b₀).memWrite (s.effAddr 1) b₁).memWrite (s.effAddr 2) b₂
    t.memRead (s.effAddr 0) = b₀ ∧ t.memRead (s.effAddr 1) = b₁ ∧ t.memRead (s.effAddr 2) = b₂ := by
  have h₀₁ : reduceAddr (s.effAddr 0) ≠ reduceAddr (s.effAddr 1) :=
    mt (s.effAddr_inj (by decide) (by decide)) (by decide)
  have h₀₂ : reduceAddr (s.effAddr 0) ≠ reduceAddr (s.effAddr 2) :=
    mt (s.effAddr_inj (by decide) (by decide)) (by decide)
  have h₁₂ : reduceAddr (s.effAddr 1) ≠ reduceAddr (s.effAddr 2) :=
    mt (s.effAddr_inj (by decide) (by decide)) (by decide)
  simp [State.memRead_memWrite, h₀₁, h₀₂, h₁₂]

/-- Settles O32: the three bytes stand each at its own address, and each is one digit. -/
theorem bcdStoresTheDecimalDigits : Obligations.BcdStoresTheDecimalDigits := by
  intro x s
  obtain ⟨h₀, h₁, h₂⟩ := s.memRead_three_stored (hundreds (s.getV x)) (tens (s.getV x)) (units (s.getV x))
  refine ⟨_, exec_ldBVx s x, ?_, ?_, ?_, rfl, exec_onlyMemory (exec_ldBVx s x)⟩
  · rw [State.advance_memRead, h₀, hundreds_toNat]
  · rw [State.advance_memRead, h₁, tens_toNat]
  · rw [State.advance_memRead, h₂, units_toNat]

/-! ### The block transfers (R224, R225) -/

/-- Fx55 writes memory and pc only. -/
theorem exec_storeRegs_update (s : State) (x : Reg) : exec (.storeRegs x) s =
    .next { s with mem := (s.storeList (regsUpTo x)).mem, pc := s.pc + 2 } := by
  rw [exec_storeRegs, State.storeList_eq]
  rfl

/-- Settles O33, by `exec_storeRegs_memRead`; `I` is no element that Fx55 writes. -/
theorem storeRegistersFromIndex : Obligations.StoreRegistersFromIndex := by
  intro x s
  have h := exec_storeRegs_update s x
  exact ⟨_, h, fun k hk => exec_storeRegs_memRead h hk, rfl, exec_onlyMemory h⟩

/-- Fx65 writes the register file and pc only. -/
theorem exec_loadRegs_update (s : State) (x : Reg) : exec (.loadRegs x) s =
    .next { s with v := (s.loadList (regsUpTo x)).v, pc := s.pc + 2 } := by
  rw [exec_loadRegs, State.loadList_eq]
  rfl

/-- After Fx65 Vk is the byte at `I + k`, for every k up to x (R225). -/
theorem exec_loadRegs_getV {x k : Reg} (h : exec (.loadRegs x) s = .next t) (hk : k ≤ x) :
    t.getV k = s.memRead (s.effAddr k.val) := by
  rw [exec_loadRegs] at h
  cases h
  rw [State.advance_getV, State.loadList_getV, if_pos (mem_regsUpTo.mpr hk)]

/-- Settles O34, by `exec_loadRegs_getV`; the registers above x are none that Fx65 writes, nor is `I` or memory. -/
theorem loadRegistersFromIndex : Obligations.LoadRegistersFromIndex := by
  intro x s
  have h := exec_loadRegs_update s x
  exact ⟨_, h, fun k hk => exec_loadRegs_getV h hk, rfl, onlyRegs_update _ (onlyNamedRegistersAreWritten _ _ _ h)⟩

end Sys2Proof.Machine
end

section
/-! SUPPORT. The key skips, the key-input machine and the timers (44_keys_timers.md), with the statements of that family. -/

namespace Sys2Proof.Machine

variable {s t : State} {i : Instr} {c : Command} {k : KeyIndex} {p : Bool}

/-! ### The key skips (R250 to R252) -/

theorem selectedKey_eq {b : Byte} (h : b.toNat % 16 = k.val) : selectedKey b = k :=
  Fin.eq_of_val_eq ((selectedKey_val b).trans h)

/-- Settles O36: the two skips test the flag of the key that the low 4 bits of Vx select, and its negation. -/
theorem keySkipsTestTheSelectedKey : Obligations.KeySkipsTestTheSelectedKey := by
  intro x k s hk
  obtain rfl := selectedKey_eq hk
  exact ⟨exec_skip_cases (exec_skp s x) id id,
    exec_skip_cases (exec_sknp s x) (congrArg not) (congrArg not)⟩

/-! ### The timers and their expiry (R253, R255, R256, R263 to R266) -/

/-- An update of the timers and pc keeps everything else. -/
theorem onlyTimers_update (s : State) (dt st : Byte) (pc : Word) : OnlyTimers s { s with dt := dt, st := st, pc := pc } :=
  ⟨fun _ => rfl, fun _ => rfl, rfl, ⟨rfl, rfl⟩, ⟨rfl, rfl⟩, ⟨rfl, rfl, rfl⟩, ⟨rfl, rfl⟩, rfl, rfl, rfl, rfl⟩

/-- The result of STEP and LOAD is OK or a fault (R43). -/
theorem State.result_ne_expiry (s : State) (b : Bool) : s.result ≠ .expiry b := by
  rw [State.result_eq]
  split <;> exact Output.noConfusion

/-- Only TICK emits an expiry signal (R43, R264). -/
theorem output_ne_expiry (hc : c ≠ .tick) (s t : State) (b : Bool) : output c s t ≠ .expiry b := by
  cases c with
  | tick => exact absurd rfl hc
  | load | step => exact t.result_ne_expiry b
  | reset | key | clearRedraw => exact Output.noConfusion

/-- Settles O37: each of the three is one update, of a register or of a timer. -/
theorem timerTransfers : Obligations.TimerTransfers := fun x s =>
  ⟨exec_result_cases (R := (· = _)) (exec_ldVxDT s x) rfl,
    ⟨_, exec_ldDTVx s x, rfl, rfl, rfl, onlyTimers_update s _ _ _⟩,
    ⟨_, exec_ldSTVx s x, rfl, rfl, rfl, onlyTimers_update s _ _ _, fun _ b hc => output_ne_expiry hc s _ b⟩⟩

/-- A tick expires the sound timer exactly where it moves it from 1 to 0. -/
theorem expires_iff_one_to_zero (b : Byte) : expires b = true ↔ b.toNat = 1 ∧ (tickDown b).toNat = 0 := by
  have hone : b = 1 ↔ b.toNat = 1 := BitVec.toNat_eq
  rw [expires_iff, State.tickDown_toNat, hone]
  omega

theorem output_tick_eq_iff (s t : State) (b : Bool) : output .tick s t = .expiry b ↔ expires s.st = b :=
  ⟨Output.expiry.inj, congrArg Output.expiry⟩

/-- Settles O42: TICK is one update of the two timers, each counted down by itself. -/
theorem tickCountsDownAndSignalsExpiry : Obligations.TickCountsDownAndSignalsExpiry := by
  intro s
  have hexp := expires_iff_one_to_zero s.st
  refine ⟨_, rfl, State.tickDown_toNat s.dt, State.tickDown_toNat s.st, ?_, ?_, rfl, onlyTimers_update s _ _ _⟩
  · exact (output_tick_eq_iff s _ true).trans hexp
  · exact (output_tick_eq_iff s _ false).trans (Bool.eq_false_iff.trans (not_congr hexp))

/-! ### Key events (R259 to R261) -/

/-- An update of the registers, pc and the key input keeps everything else. -/
theorem keyInput_update_frame (s : State) (v : Vector Byte 16) (pc : Word) (key : Vector Bool 16) (kstate : KState)
    (ktarget : Reg) :
    let t := { s with v := v, pc := pc, key := key, kstate := kstate, ktarget := ktarget }
    SameMemory s t ∧ SameIndex s t ∧ SameStack s t ∧ SameTimers s t ∧ SameDisplay s t ∧ SameFault s t ∧ SameInputs s t :=
  ⟨fun _ => rfl, rfl, ⟨rfl, rfl⟩, ⟨rfl, rfl⟩, ⟨rfl, rfl⟩, ⟨rfl, rfl⟩, rfl, rfl, rfl, rfl⟩

/-- Settles O38: Fx0A is one update of the key-input machine. -/
theorem keyReadEntersTheWait : Obligations.KeyReadEntersTheWait := fun x s =>
  ⟨_, exec_ldVxK s x, rfl, rfl, rfl, rfl, fun _ => rfl, keyInput_update_frame s _ _ _ _ _⟩

/-- A press is accepted while a key is awaited and no fault is recorded (R259, R297; log 6). -/
theorem State.keyEvent_accepted (k : KeyIndex) (hk : s.kstate = .awaitingKey) (hf : s.fault = .none) :
    s.keyEvent k true = s.acceptKey k := by
  unfold State.keyEvent
  rw [hk, hf]

/-- Settles O39: the press writes one key flag and one register, and its index fits a byte. -/
theorem keyPressEndsTheWait : Obligations.KeyPressEndsTheWait := by
  intro k s hk hf
  have hread (r : Reg) : (s.acceptKey k).getV r = if r = s.ktarget then BitVec.ofNat 8 k.val else s.getV r :=
    (s.setKey k true).getV_setV s.ktarget r _
  refine ⟨s.acceptKey k, congrArg _ (State.keyEvent_accepted k hk hf), fun k' => s.getKey_setKey k k' true, ?_, rfl, rfl,
    rfl, fun r hr => (hread r).trans (if_neg hr), keyInput_update_frame s _ _ _ _ _⟩
  rw [hread, if_pos rfl, BitVec.toNat_ofNat]
  omega

/-- An event that is not accepted only updates the key array: a release, or any event while Running or halted (R260,
R297). -/
theorem perform_key_not_accepted (h : p = false ∨ s.kstate = .running ∨ s.fault ≠ .none) :
    ∃ t, perform (.key k p) s = .next t ∧ (∀ k', t.getKey k' = if k' = k then p else s.getKey k') ∧
      t.kstate = s.kstate ∧ t.ktarget = s.ktarget ∧ t.pc = s.pc ∧ SameRegs s t ∧ SameMemory s t ∧ SameIndex s t ∧
      SameStack s t ∧ SameTimers s t ∧ SameDisplay s t ∧ SameFault s t ∧ SameInputs s t := by
  have hset : s.keyEvent k p = s.setKey k p := by
    obtain ⟨hp, hk, hf, -⟩ | ⟨-, e⟩ := s.keyEvent_cases k p
    · simp [hp, hk, hf] at h
    · exact e
  exact ⟨s.setKey k p, congrArg _ hset, fun k' => s.getKey_setKey k k' p, rfl, rfl, rfl, fun _ => rfl,
    keyInput_update_frame s _ _ _ _ _⟩

/-- Settles O40, by `perform_key_not_accepted`. -/
theorem otherKeyEventsOnlyUpdateTheArray : Obligations.OtherKeyEventsOnlyUpdateTheArray :=
  fun _ _ _ h => perform_key_not_accepted (h.imp_right .inl)

/-! ### The key-input machine (R257) -/

/-- An instruction keeps the state of the machine, unless it is the Fx0A that enters the wait. -/
theorem exec_kstate (h : exec i s = .next t) :
    t.kstate = s.kstate ∨ t.kstate = .awaitingKey ∧ i = .ldVxK t.ktarget := by
  cases exec_effect h with
  | keyWait x => exact .inr ⟨rfl, rfl⟩
  | registers | draw | memory | index | stack | underflow | overflow | delayTimer | soundTimer | display => exact .inl rfl

/-- A STEP enters the wait only by the Fx0A at pc; it never ends one. -/
theorem State.stepWith_kstate {r : Option Byte} (h : s.stepWith r = .next t) :
    t.kstate = s.kstate ∨ t.kstate = .awaitingKey ∧ decode s.fetchWord = .ok (.ldVxK t.ktarget) := by
  obtain ⟨u, hu, rfl⟩ := State.stepWith_eq_next h
  obtain rfl | ⟨-, -, ⟨i, hd, hi⟩ | ⟨_, -, rfl⟩⟩ := State.stepCore_inv hu
  · exact .inl rfl
  · exact (exec_kstate hi).imp_right fun ⟨hwait, htarget⟩ => ⟨hwait, htarget ▸ hd⟩
  · exact .inl rfl

/-- A key event changes the state of the machine only where it is a press, to Running. -/
theorem State.keyEvent_kstate (s : State) (k : KeyIndex) (p : Bool) :
    (s.keyEvent k p).kstate = s.kstate ∨ p = true ∧ (s.keyEvent k p).kstate = .running := by
  obtain ⟨hp, -, -, e⟩ | ⟨-, e⟩ := s.keyEvent_cases k p <;> rw [e]
  · exact .inr ⟨hp, rfl⟩
  · exact .inl rfl

/-- All that a command can do to the state of the machine: keep it, end the wait, or enter it. -/
theorem perform_kstate (h : perform c s = .next t) :
    t.kstate = s.kstate ∨
    t.kstate = .running ∧ ((∃ k, c = .key k true) ∨ c = .reset) ∨
    t.kstate = .awaitingKey ∧ decode s.fetchWord = .ok (.ldVxK t.ktarget) := by
  cases c with
  | step r => exact (State.stepWith_kstate h).imp_right .inr
  | key k p =>
    cases h
    obtain hkeep | ⟨rfl, hrun⟩ := s.keyEvent_kstate k p
    · exact .inl hkeep
    · exact .inr (.inl ⟨hrun, .inl ⟨k, rfl⟩⟩)
  | reset => cases h; exact .inr (.inl ⟨rfl, .inr rfl⟩)
  | load bytes => cases h; rw [State.load_eq]; exact .inl rfl
  | tick => cases h; exact .inl rfl
  | clearRedraw => cases h; exact .inl rfl

/-- All that a step can do to the state of the machine; the command is the oldest that waits (log 3). -/
theorem step_kstate (h : step s = .next t) :
    t.kstate = s.kstate ∨
    t.kstate = .running ∧ ((∃ k rest, s.pending = .key k true :: rest) ∨ ∃ rest, s.pending = .reset :: rest) ∨
    t.kstate = .awaitingKey ∧ decode s.fetchWord = .ok (.ldVxK t.ktarget) := by
  obtain ⟨-, h⟩ | ⟨c, rest, hp, h⟩ := step_inv h
  · exact (State.stepWith_kstate h).imp_right .inr
  · obtain hkeep | ⟨hrun, ⟨k, rfl⟩ | rfl⟩ | hwait := perform_kstate h
    · exact .inl hkeep
    · exact .inr (.inl ⟨hrun, .inl ⟨k, rest, hp⟩⟩)
    · exact .inr (.inl ⟨hrun, .inr ⟨rest, hp⟩⟩)
    · exact .inr (.inr hwait)

/-- Settles O43: of the cases of `step_kstate`, one ends the wait and one enters it. -/
theorem keyMachineTransitions : Obligations.KeyMachineTransitions := by
  refine ⟨rfl, fun s t h hs ht => ?_, fun s t h hs ht => ?_⟩
  · obtain hkeep | ⟨-, hend⟩ | ⟨hwait, -⟩ := step_kstate h
    · simp [hs, ht] at hkeep
    · exact hend
    · simp [ht] at hwait
  · obtain hkeep | ⟨hrun, -⟩ | ⟨-, henter⟩ := step_kstate h
    · simp [hs, ht] at hkeep
    · simp [ht] at hrun
    · exact henter

end Sys2Proof.Machine
end

section
/-! SUPPORT. The fault record: who writes it, and what a halted core still does (60_exceptions.md), with the statements of
that family. -/

namespace Sys2Proof.Machine

variable {s t : State} {i : Instr} {c : Command}

/-! ### The instructions that raise a fault (R291 to R293, R295) -/

/-- The word of 2nnn as a sum: the operand fits below the group digit (R93, R94). -/
theorem encode_call (nnn : Addr) : encode (.call nnn) = 0x2000 + zextAddr nnn := by
  have := nnn.isLt
  apply BitVec.eq_of_toNat_eq
  rw [encode, formatA_toNat, BitVec.toNat_add, zextAddr_toNat]
  show 2 * 4096 + nnn.toNat = (0x2000 + nnn.toNat) % 65536
  omega

/-- An instruction keeps the fault record, or is one of the two that raise a fault, and then it changes nothing else. -/
theorem exec_record (h : exec i s = .next t) :
    SameFault s t ∨ (i = .ret ∧ s.sp = 0 ∧ t = s.raise .stackUnderflow 0x00EE) ∨
      ∃ nnn, i = .call nnn ∧ s.sp = 16 ∧ t = s.raise .stackOverflow (0x2000 + zextAddr nnn) := by
  cases exec_effect h with
  | underflow hsp => exact .inr (.inl ⟨rfl, hsp, rfl⟩)
  | overflow nnn hsp => exact .inr (.inr ⟨nnn, rfl, hsp, congrArg _ (encode_call nnn)⟩)
  | registers | draw | memory | index | stack | delayTimer | soundTimer | display | keyWait => exact .inl ⟨rfl, rfl⟩

/-- Settles O47: of the cases of `exec_record`, one keeps the record. -/
theorem onlyCallAndReturnRaiseAFault : Obligations.OnlyCallAndReturnRaiseAFault := by
  intro i s t h hchanged
  obtain ⟨hfault, hword⟩ | ⟨hi, hsp, rfl⟩ | ⟨nnn, hi, hsp, rfl⟩ := exec_record h
  · exact absurd hchanged (by simp [hfault, hword])
  · exact .inl ⟨hi, hsp, rfl, rfl⟩
  · exact .inr ⟨nnn, hi, hsp, rfl, rfl⟩

/-! ### Faults are precise (R295, R43) -/

/-- An instruction that leaves a fault in a core that had none changes nothing but the record. -/
theorem exec_precise (hs : s.fault = .none) (h : exec i s = .next t) (ht : t.fault ≠ .none) :
    t = s.raise t.fault t.faultWord := by
  obtain ⟨hfault, -⟩ | ⟨-, -, rfl⟩ | ⟨_, -, -, rfl⟩ := exec_record h
  · exact absurd (hfault.trans hs) ht
  · rfl
  · rfl

/-- A `STEP` that leaves a fault in a core that had none changes nothing but the record; its byte is gone (log 2). -/
theorem State.stepWith_precise {r : Option Byte} (hs : s.fault = .none) (h : s.stepWith r = .next t)
    (ht : t.fault ≠ .none) : t = (s.raise t.fault t.faultWord).dropSample := by
  obtain rfl | ⟨i, u, hu, rfl⟩ | rfl := State.stepWith_inv h
  · exact absurd hs ht
  · have hprecise : u = (s.sample r).raise u.fault u.faultWord := exec_precise (s := s.sample r) hs hu ht
    calc u.dropSample = ((s.sample r).raise u.fault u.faultWord).dropSample := congrArg State.dropSample hprecise
      _ = (s.raise u.fault u.faultWord).dropSample := rfl
  · rfl

/-- A `LOAD` that leaves a fault in a core that had none is an oversize one, and changes nothing but the record (R333). -/
theorem State.load_precise {bytes : List Byte} (hs : s.fault = .none) (ht : (s.load bytes).fault ≠ .none) :
    s.load bytes = s.raise .romTooLarge 0x0000 ∧ Config.romMax < bytes.length := by
  obtain ⟨hhalted, -⟩ | ⟨-, hlen, e⟩ | ⟨-, -, e⟩ := s.load_cases bytes
  · exact absurd hs hhalted
  · exact ⟨e, hlen⟩
  · exact absurd hs (by rwa [e] at ht)

/-- The output of a LOAD that leaves a fault is the record (R43). -/
theorem output_load_of_fault (bytes : List Byte) (s : State) (h : t.fault ≠ .none) :
    output (.load bytes) s t = .fault t.fault t.faultWord :=
  (State.result_eq t).trans (if_neg h)

/-- Settles O44, by `State.stepWith_precise` and `State.load_precise`. -/
theorem faultingCommandChangesOnlyTheRecord : Obligations.FaultingCommandChangesOnlyTheRecord := by
  refine ⟨fun r s t hs h ht => ?_, fun bytes s t hs h ht => ?_⟩
  · exact ⟨State.stepWith_precise hs h ht, output_step_of_fault r s ht⟩
  · cases h
    obtain ⟨hrecord, hlen⟩ := State.load_precise hs ht
    exact ⟨hrecord, hlen, output_load_of_fault bytes s ht⟩

/-! ### The halted core (R296 to R298) -/

/-- A halted core ignores a LOAD of any length (R296). -/
theorem State.load_halted (bytes : List Byte) (hs : s.fault ≠ .none) : s.load bytes = s := if_pos hs

/-- Settles O46: neither command does anything to a halted core, and the result of each is the record. -/
theorem haltedStepAndLoadChangeNothing : Obligations.HaltedStepAndLoadChangeNothing := fun s hs =>
  ⟨fun r => ⟨s.stepWith_halted r hs, output_step_of_fault r s hs⟩,
    fun bytes => ⟨congrArg _ (State.load_halted bytes hs), output_load_of_fault bytes s hs⟩⟩

/-- Settles O41, by `perform_key_not_accepted`. -/
theorem haltedKeyEventsOnlyUpdateTheArray : Obligations.HaltedKeyEventsOnlyUpdateTheArray :=
  fun _ _ _ hs => perform_key_not_accepted (.inr (.inr hs))

/-- Every command but RESET keeps the record of a halted core: STEP and LOAD do nothing (R296), and no other command
writes it. -/
theorem perform_halted_record (hc : c ≠ .reset) (hs : s.fault ≠ .none) (h : perform c s = .next t) : SameFault s t := by
  cases c with
  | reset => exact absurd rfl hc
  | step r =>
    cases (s.stepWith_halted r hs).symm.trans h
    exact ⟨rfl, rfl⟩
  | load bytes =>
    cases h
    rw [State.load_halted bytes hs]
    exact ⟨rfl, rfl⟩
  | key k p =>
    cases h
    rw [State.keyEvent_eq]
    exact ⟨rfl, rfl⟩
  | tick | clearRedraw =>
    cases h
    exact ⟨rfl, rfl⟩

/-- Settles O45, by `perform_halted_record`; the reset state has no fault (R46). -/
theorem onlyResetClearsAFault : Obligations.OnlyResetClearsAFault :=
  ⟨fun _ _ _ => perform_halted_record, fun _ => ⟨_, rfl, rfl⟩⟩

end Sys2Proof.Machine
end

section
/-! SUPPORT. The state that RESET leaves, what a LOAD copies, and the steps that always go on or change nothing
(70_reset_and_hazards.md), with the statements of that family. -/

namespace Sys2Proof.Machine

variable {s : State} {bytes : List Byte}

/-! ### RESET (R46, R330) -/

/-- After RESET every byte of memory is one of `FONT`, or zero beyond it (R64, R65). -/
theorem State.resetCore_memRead (s : State) (a : Word) :
    s.resetCore.memRead a = if h : reduceAddr a < 80 then s.font[reduceAddr a] else 0 := rfl

theorem State.resetCore_getV (s : State) (r : Reg) : s.resetCore.getV r = 0 := Vector.getElem_replicate r.isLt

theorem State.resetCore_stack (s : State) (j : Fin 16) : s.resetCore.stack[j.val] = 0 := Vector.getElem_replicate j.isLt

theorem State.resetCore_getKey (s : State) (k : KeyIndex) : s.resetCore.getKey k = false := Vector.getElem_replicate k.isLt

/-- After RESET every pixel is off (R46). -/
theorem State.resetCore_fbBit (s : State) (j : Fin 2048) : fbBit s.resetCore.fb j = false := pixelOn_blank _ _

/-- Settles O48: memory and the arrays by their lemmas, and each other element is one value of `State.reset`. -/
theorem resetGivesTheResetTable : Obligations.ResetGivesTheResetTable := fun s =>
  ⟨s.resetCore, rfl, s.resetCore_memRead, s.resetCore_getV, rfl, rfl, s.resetCore_stack, rfl, rfl, rfl,
    s.resetCore_fbBit, rfl, s.resetCore_getKey, rfl, rfl, rfl, rfl, rfl, rfl, rfl, rfl, rfl⟩

/-! ### LOAD (R332 to R334) -/

/-- A LOAD that fits, with no fault recorded, writes memory only (R332). -/
theorem State.load_fits (hf : s.fault = .none) (hlen : bytes.length ≤ Config.romMax) :
    s.load bytes = { s with mem := s.mem.writeAll s.font Config.romBase bytes } := by
  obtain ⟨hhalted, -⟩ | ⟨-, hover, -⟩ | ⟨-, -, e⟩ := s.load_cases bytes
  · exact absurd hf hhalted
  · exact absurd hlen (Nat.not_le.mpr hover)
  · exact e

/-- A LOAD that does not fit, with no fault recorded, raises RomTooLarge (R333). -/
theorem State.load_oversize (hf : s.fault = .none) (hlen : Config.romMax < bytes.length) :
    s.load bytes = s.raise .romTooLarge 0x0000 := by
  obtain ⟨hhalted, -⟩ | ⟨-, -, e⟩ | ⟨-, hfits, -⟩ := s.load_cases bytes
  · exact absurd hf hhalted
  · exact e
  · exact absurd hlen (Nat.not_lt.mpr hfits)

/-- What an address reads as after a LOAD that fits: the byte copied there, or else what it held. -/
theorem State.load_memRead (hf : s.fault = .none) (hlen : bytes.length ≤ Config.romMax) (a : Word) :
    (s.load bytes).memRead a =
      if h : Config.romBase ≤ reduceAddr a ∧ reduceAddr a - Config.romBase < bytes.length then
        bytes[reduceAddr a - Config.romBase]
      else s.memRead a := by
  rw [State.load_fits hf hlen]
  exact Memory.read_writeAll s.mem Config.romBase (reduceAddr a) bytes

/-- An address of the program area is below 4096, so that it is not reduced (R61, R332). -/
theorem reduceAddr_romBase_add {j : Nat} (hj : j < Config.romMax) :
    reduceAddr (BitVec.ofNat 16 (Config.romBase + j)) = Config.romBase + j := by
  have hfits : Config.romBase + j < Config.memSize := Nat.add_lt_add_left hj Config.romBase
  rw [reduceAddr, BitVec.toNat_ofNat, Nat.mod_eq_of_lt (Nat.lt_trans hfits (by decide)), Nat.mod_eq_of_lt hfits]

theorem State.load_memRead_copied (hf : s.fault = .none) (hlen : bytes.length ≤ Config.romMax) (j : Nat)
    (hj : j < bytes.length) : (s.load bytes).memRead (BitVec.ofNat 16 (Config.romBase + j)) = bytes[j] := by
  have ha := reduceAddr_romBase_add (Nat.lt_of_lt_of_le hj hlen)
  rw [State.load_memRead hf hlen, dif_pos ⟨by omega, by omega⟩]
  simp only [ha, Nat.add_sub_cancel_left]

/-- A LOAD that fits leaves every byte outside the copy and every other element alone (R332). -/
theorem State.load_onlyMemory (hf : s.fault = .none) (hlen : bytes.length ≤ Config.romMax) :
    OnlyMemory (fun a => Config.romBase ≤ a ∧ a < Config.romBase + bytes.length) s (s.load bytes) := by
  have houtside : SameMemoryOutside (fun a => Config.romBase ≤ a ∧ a < Config.romBase + bytes.length) s (s.load bytes) :=
    fun a ha => by rw [State.load_memRead hf hlen, dif_neg (by omega)]
  rw [State.load_fits hf hlen] at houtside ⊢
  exact ⟨houtside, fun _ => rfl, rfl, ⟨rfl, rfl⟩, ⟨rfl, rfl⟩, ⟨rfl, rfl⟩, ⟨rfl, rfl, rfl⟩, ⟨rfl, rfl⟩, rfl, rfl, rfl, rfl⟩

theorem State.load_pc (s : State) (bytes : List Byte) : (s.load bytes).pc = s.pc := by rw [State.load_eq]

/-- The output of a LOAD that fits is OK (R43, R332). -/
theorem output_load_fits (hf : s.fault = .none) (hlen : bytes.length ≤ Config.romMax) :
    output (.load bytes) s (s.load bytes) = .ok := by
  rw [State.load_fits hf hlen]
  exact (State.result_eq _).trans (if_pos hf)

/-- Settles O50, by what memory reads as after the LOAD and by its frame. -/
theorem loadCopiesTheBytes : Obligations.LoadCopiesTheBytes := fun bytes s hlen hf =>
  ⟨s.load bytes, rfl, State.load_memRead_copied hf hlen, output_load_fits hf hlen, s.load_pc bytes,
    State.load_onlyMemory hf hlen⟩

/-- Settles O51: the oversize LOAD is one raise, and its output is that record. -/
theorem oversizeLoadIsAFault : Obligations.OversizeLoadIsAFault := fun bytes s hlen hf =>
  ⟨_, congrArg Host.Outcome.next (State.load_oversize hf hlen), rfl, output_load_of_fault bytes s FaultKind.noConfusion⟩

/-! ### The first fetch (R331) -/

/-- Settles O49: RESET puts pc at the entry point, and the two bytes that the LOAD copied there are the word of the STEP. -/
theorem firstFetchAfterResetIsAt200 : Obligations.FirstFetchAfterResetIsAt200 := by
  refine ⟨fun s => ⟨s.resetCore, rfl, rfl⟩, fun s b0 b1 rest hlen => ?_⟩
  obtain ⟨u, hu, hcopied, -, hpc, honly⟩ := loadCopiesTheBytes (b0 :: b1 :: rest) s.resetCore hlen rfl
  obtain ⟨-, -, -, -, -, -, ⟨-, hkstate, -⟩, ⟨hfault, -⟩, -⟩ := honly
  have hpc : u.pc = 0x200 := hpc
  have hword : u.fetchWord = b0 ++ b1 := by
    have hhi : u.memRead 0x200 = b0 := hcopied 0 (Nat.zero_lt_succ _)
    have hlo : u.memRead (0x200 + 1) = b1 := hcopied 1 (Nat.succ_lt_succ (Nat.zero_lt_succ _))
    rw [State.fetchWord, hpc, hhi, hlo, wordOfBytes]
  refine ⟨s.resetCore, u, rfl, hu, hword, fun i r hd => ?_⟩
  obtain ⟨v, hv, -⟩ := exec_next_effect i (u.sample r)
  exact ⟨v, hv, u.stepWith_ok hfault hkstate (hword ▸ hd) hv⟩

/-! ### Every command has a next state (R345) -/

/-- A STEP answers a next state in each case of R105. -/
theorem State.stepWith_next (s : State) (r : Option Byte) : ∃ t, s.stepWith r = .next t := by
  by_cases hf : s.fault = .none
  · cases hk : s.kstate with
    | awaitingKey => exact ⟨_, s.stepWith_stalled r hk⟩
    | running =>
      cases hd : decode s.fetchWord with
      | ok i =>
        obtain ⟨t, ht, -⟩ := exec_next_effect i (s.sample r)
        exact ⟨_, s.stepWith_ok hf hk hd ht⟩
      | error e => exact ⟨_, s.stepWith_error r hf hk hd⟩
  · exact ⟨_, s.stepWith_halted r hf⟩

theorem perform_next (c : Command) (s : State) : ∃ t, perform c s = .next t := by
  cases c with
  | step r => exact s.stepWith_next r
  | reset | load | tick | key | clearRedraw => exact ⟨_, rfl⟩

/-- Settles O11: a step is a STEP or a command that waits, and both answer a next state. -/
theorem everyStepAnswersNext : Obligations.EveryStepAnswersNext := by
  refine ⟨fun s => ?_, fun i s => ?_⟩
  · cases hp : s.pending with
    | nil => rw [step_of_nil s hp]; exact s.stepWith_next none
    | cons c rest => rw [step_of_cons s hp]; exact perform_next c _
  · obtain ⟨t, ht, -⟩ := exec_next_effect i s
    exact ⟨t, ht⟩

/-! ### The end of a run (R344) -/

/-- A STEP at a jump to itself puts pc where it was. -/
theorem State.stepWith_selfJump {nnn : Addr} (r : Option Byte) (hf : s.fault = .none) (hk : s.kstate = .running)
    (hd : decode s.fetchWord = .ok (.jp nnn)) (hself : zextAddr nnn = s.pc) : s.stepWith r = .next s.dropSample := by
  have hstay : exec (.jp nnn) (s.sample r) = .next (s.sample r) := by rw [exec_jp, hself]; rfl
  exact s.stepWith_ok (t := s.sample r) hf hk hd hstay

/-- Settles O60: the STEP that is issued finds a halted core or a jump to itself. -/
theorem endedRunChangesNothing : Obligations.EndedRunChangesNothing := by
  intro s hp hended
  rw [step_of_nil s hp]
  by_cases hf : s.fault = .none
  · obtain hhalted | ⟨hk, nnn, hd, hself⟩ := hended
    · exact absurd hf hhalted
    · exact State.stepWith_selfJump none hf hk hd hself
  · exact s.stepWith_halted none hf

end Sys2Proof.Machine
end
